-- ==== Sys2Proof/Word.lean ====
section
/-! DEFINITION. The word, byte and double-word types of the block (spec/00_scope.md R8, R10). -/
namespace Sys2Proof

/-- A byte of a byte string (R10). -/
abbrev Byte := BitVec 8

/-- A 32-bit bus word, register word or SHA-1 word (R8, R101). -/
abbrev Word := BitVec 32

/-- A 64-bit register: COUNTER, PERIOD, T0, DRIFT, NOW, VCTR (R8). -/
abbrev Dword := BitVec 64

end Sys2Proof
end

