-- ==== Sys2Proof/Config.lean ====
section
/-! DEFINITION. What the platform fixes and the spec leaves open: the window's base address
(spec/20_memory.md R60, spec/93_implementation_defined.md U1). The other open parameter of the spec, the
command latency (R88), is the schedule `turns` of State. -/
namespace Sys2Proof

/-- BASE, the address in the host's address space at which the platform places the 512-byte register
window. R60: "BASE is a model parameter (`OPEN`)". It has no body, so no proof can use a value of it. -/
opaque Config.base : Nat

end Sys2Proof
end

