-- ==== Sys2Proof/Syntax.lean ====
section
/-! DEFINITION. The commands of the block (spec/30_encoding.md R82, R83). -/
namespace Sys2Proof

/-- The commands: one constructor per row of the opcode table. No command has an immediate, a register
specifier or a mode field (R80), so no constructor has an argument; every operand is a register, fixed by
the command. -/
inductive Instr where
  /-- HMAC, OP 0x1 (R110). -/
  | hmac
  /-- TRUNC, OP 0x2 (R135). -/
  | trunc
  /-- HOTP, OP 0x3 (R137). -/
  | hotp
  /-- CINC, OP 0x4 (R150). -/
  | cinc
  /-- TOTPC, OP 0x5 (R161). -/
  | totpc
  /-- VERIFY, OP 0x6 (R182). -/
  | verify
  /-- Every other command word (R83): accepted, and completed with ILLEGAL_CMD. -/
  | illegal
deriving DecidableEq, Repr

end Sys2Proof
end

