-- ==== Sys2Proof/WellFormed.lean ====
section
/-! DEFINITION. What is well formed: a command word (spec/30_encoding.md R80, R82, R83), a host access
(spec/20_memory.md R64), and an instruction as syntax. -/
namespace Sys2Proof

/-- A command word that selects one of the six commands: RSV = 0 and OP in 0x1..0x6. R82: "A word selects a
command only if it equals one of the six command words exactly, that is, with RSV = 0." -/
def WellFormed.commandWord (w : Word) : Bool :=
  w.extractLsb' 4 28 == 0 && (1 ≤ (w.extractLsb' 0 4).toNat && (w.extractLsb' 0 4).toNat ≤ 6)

/-- A host access the block defines (R64): 4 bytes wide, at an offset that is a multiple of 4 in
[0x000, 0x1FC]. -/
def WellFormed.access (off bytes : Nat) : Bool :=
  bytes == 4 && (off % 4 == 0 && off ≤ 0x1FC)

/-- No command has an operand field (R80), so every term of `Instr` is well formed; the checks of this block
are on the command word and on the access that carries it. -/
def Instr.wf : Instr → Bool
  | .hmac | .trunc | .hotp | .cinc | .totpc | .verify | .illegal => true

end Sys2Proof
end

