-- ==== Sys2Proof/Decode.lean ====
section
/-! DEFINITION. The decoder of command words, total on all 32-bit words, and after it the encoder
(spec/30_encoding.md R80, R82, R85). -/
namespace Sys2Proof

/-- The OP field, bits 3:0 (R80). -/
def opField (w : Word) : BitVec 4 := w.extractLsb' 0 4

/-- The RSV field, bits 31:4, which must be 0 (R80). -/
def rsvField (w : Word) : BitVec 28 := w.extractLsb' 4 28

/-- R85: the total decoding function. A word that selects no command is rejected by the name ILLEGAL. -/
def decode (w : Word) : Instr :=
  if rsvField w ≠ 0 then .illegal
  else match (opField w).toNat with
    | 1 => .hmac
    | 2 => .trunc
    | 3 => .hotp
    | 4 => .cinc
    | 5 => .totpc
    | 6 => .verify
    | _ => .illegal

/-- R82, the column "command word". Every illegal word is a word of ILLEGAL; R82's row 0x00000000 is the one
written here (log 11). -/
def encode : Instr → Word
  | .hmac => 0x00000001
  | .trunc => 0x00000002
  | .hotp => 0x00000003
  | .cinc => 0x00000004
  | .totpc => 0x00000005
  | .verify => 0x00000006
  | .illegal => 0x00000000

/-- The 32-bit word of an opcode-table row's bits: `nbits` bits are given, every bit above them is 0. -/
def wordOfBits (nbits w : Nat) : Word := BitVec.ofNat 32 (w % 2 ^ nbits)

/-- The instruction this decoder reads from the instruction word whose bits are `w`. R84: every command word
is exactly 32 bits, delivered by exactly one CMD write, so more than 32 bits are no command word. -/
def decodeTableWord (nbits w : Nat) : Option Instr :=
  if nbits ≤ 32 then some (decode (wordOfBits nbits w)) else none

end Sys2Proof
end

