-- ==== Sys2Proof/Machine/State.lean ====
section
/-! DEFINITION. The state of the block and of the two agents around it: every register of
spec/10_state.md R20, the hidden state of R44, the reset input of R240, and the model's own fields for what
the host and the scheduler do next. -/
namespace Sys2Proof.Machine

/-- The machine has no fault: an error of a command is an outcome code in STATUS.ERR (R210, R215: "there is
no trap, no vector and no handler"), and no behaviour of the block is stuck (93, part 2). So no constructor
stands here and no step can answer a fault (log 8); safe. -/
inductive Fault where
deriving DecidableEq, Repr

/-- Why a step has no meaning. -/
inductive Refusal where
  /-- Raised by an arm of `exec` whose instruction has no meaning yet; no arm raises it. Safe. -/
  | notModelled (mnemonic : String)
  /-- Raised by a host access that is not 4 bytes wide: "a byte or halfword access; a wider access" (R64).
  Safe: the model stops. -/
  | accessWidth
  /-- Raised by a host word access "at an offset outside the window" (R64). Safe: the model stops. -/
  | outsideWindow
  /-- Raised by a host word access inside the window "at an offset that is not a multiple of 4" (R64).
  Safe: the model stops. -/
  | misaligned
deriving DecidableEq, Repr

/-- The error codes a command can raise (R210). -/
inductive ErrCode where
  | invalidDigitCount
  | invalidThreshold
  | timeUnderflow
  | periodZero
  | lengthRange
  | illegalCmd
deriving DecidableEq, Repr

/-- Five 32-bit words: DIGEST0..DIGEST4 (R39), and the hash value H0..H4 of SHA-1 (R103). -/
structure Digest where
  w0 : Word
  w1 : Word
  w2 : Word
  w3 : Word
  w4 : Word
deriving DecidableEq, Repr

/-- What dynamic truncation returns (R130, R131). `code` is the exact integer. -/
structure TruncResult where
  offset : BitVec 4
  p : Word
  snum : BitVec 31
  code : Nat
deriving DecidableEq, Repr

/-- The register writes a successful command performs (R12, R81): each result group is written or not. -/
structure Writes where
  digest : Option Digest := none
  truncation : Option TruncResult := none
  counter : Option Dword := none
  /-- VSTEPS and VCTR. -/
  sync : Option (BitVec 16 × Dword) := none
deriving DecidableEq, Repr

/-- The outcome of a command (R13): `complete(writes)` or `raise Error(code)`. -/
inductive CmdOutcome where
  | complete (w : Writes)
  | error (e : ErrCode)
deriving DecidableEq, Repr

/-- The engine's phase (R44): IDLE or RUNNING(op). -/
inductive Phase where
  | idle
  | running (op : Instr)
deriving DecidableEq, Repr

/-- Where the VERIFY state machine stands (R181), with the iteration state `ctr`, `rem` and `d` of R44. -/
inductive VerifyIter where
  | checkKey
  | checkRange
  /-- State TRY: the working counter, the remaining attempts, the inferred digit count. -/
  | attempt (ctr : Dword) (rem : BitVec 16) (d : Nat)
  /-- State DONE_OK, with the values for VSTEPS and VCTR. -/
  | doneOk (steps : BitVec 16) (ctr : Dword)
  /-- State DONE_ERR, with the error. -/
  | doneErr (e : ErrCode)
deriving DecidableEq, Repr

/-- A bus access of the host at an address of its own address space, with its width in bytes (R60, R64). The
data of an access that is not 4 bytes wide is immaterial: such an access is refused. -/
inductive Access where
  | read (addr bytes : Nat)
  | write (addr bytes : Nat) (value : Word)
deriving DecidableEq, Repr

/-- One operation of the host's program after expansion (R89, R90): an access, or the `poll` loop. -/
inductive HostOp where
  | access (a : Access)
  /-- `rd STATUS`, repeated until bit 0 of the value read is 0 (R90). -/
  | poll
deriving DecidableEq, Repr

/-- Which agent moves next, and with which move (R69, R88, R240). -/
inductive Turn where
  /-- The host performs its next operation. -/
  | host
  /-- The engine makes one internal transition of a running VERIFY (R181). -/
  | work
  /-- The engine completes the running command (R87). -/
  | complete
  /-- The platform asserts the reset input (R240). -/
  | assertReset
  /-- The platform releases the reset input. -/
  | releaseReset
deriving DecidableEq, Repr

/-- The registers of R20 under their own names (64-bit registers by halves, R63), and the reserved
offsets. -/
inductive Reg where
  | id | cmd | status | digits | threshold | keyLen | msgLen | submitted
  | counterHi | counterLo | periodHi | periodLo | t0Hi | t0Lo | driftHi | driftLo | nowHi | nowLo
  | digest0 | digest1 | digest2 | digest3 | digest4
  | offset | snum | code | vsteps | vctrHi | vctrLo
  /-- Word `i` of the KEY window (R47). -/
  | key (i : Fin 32)
  /-- Word `i` of the MSG window (R48). -/
  | msg (i : Fin 32)
  | reserved
deriving DecidableEq, Repr

/-- The access types of R20. -/
inductive AccessType where
  | ro | wo | rw | w1c | reserved
deriving DecidableEq, Repr

/-- The whole state. STATUS.BUSY is not a field: it is 1 exactly in RUNNING (R44), so it is computed from
`phase` (log 4). -/
structure State where
  /-- STATUS.DONE (R25). -/
  done : Bool
  /-- STATUS.ERR (R26). -/
  err : BitVec 4
  /-- STATUS.LAST_OP (R27). -/
  lastOp : BitVec 4
  /-- STATUS.COLL (R28). -/
  coll : Bool
  /-- DIGITS (R34). -/
  digits : BitVec 4
  /-- THRESHOLD (R35). -/
  threshold : BitVec 16
  /-- KEY_LEN (R36). -/
  keyLen : BitVec 8
  /-- MSG_LEN (R37). -/
  msgLen : BitVec 8
  /-- SUBMITTED (R38). -/
  submitted : Word
  /-- COUNTER_HI and COUNTER_LO (R29). -/
  counter : Dword
  /-- PERIOD_HI and PERIOD_LO (R30). -/
  period : Dword
  /-- T0_HI and T0_LO (R31). -/
  t0 : Dword
  /-- DRIFT_HI and DRIFT_LO (R32). -/
  drift : Dword
  /-- NOW_HI and NOW_LO (R33). -/
  now : Dword
  /-- DIGEST0..DIGEST4 (R39). -/
  digest : Digest
  /-- OFFSET (R40). -/
  offset : BitVec 4
  /-- SNUM (R41). -/
  snum : BitVec 31
  /-- CODE (R42). -/
  code : BitVec 27
  /-- VSTEPS (R43). -/
  vsteps : BitVec 16
  /-- VCTR_HI and VCTR_LO (R45). -/
  vctr : Dword
  /-- The KEY and MSG buffers, by window offset (R47, R48): a canonical list (log 5). -/
  mem : List Host.Cell
  /-- The engine's phase (R44). -/
  phase : Phase
  /-- The VERIFY iteration state, while a VERIFY runs (R44, R181). -/
  iter : Option VerifyIter
  /-- The level of the reset input (R240). -/
  resetIn : Bool
  /-- The model's own: the operations the host has still to perform, in program order (R69). -/
  script : List HostOp
  /-- The model's own: which agent moves next (R69, R88); when the list is empty the engine moves as soon as
  it can and the host otherwise (log 1). -/
  turns : List Turn
  /-- The model's own: the values the host's reads returned, oldest first. -/
  reads : List Word
deriving DecidableEq, Repr

/-- The block right after reset (R50, R241): the reset column of R20, no host operation pending. -/
def State.reset : State where
  done := false
  err := 0
  lastOp := 0
  coll := false
  digits := 6
  threshold := 15
  keyLen := 20
  msgLen := 0
  submitted := 0
  counter := 0
  period := 30
  t0 := 0
  drift := 2
  now := 0
  digest := ⟨0, 0, 0, 0, 0⟩
  offset := 0
  snum := 0
  code := 0
  vsteps := 0
  vctr := 0
  mem := []
  phase := .idle
  iter := none
  resetIn := false
  script := []
  turns := []
  reads := []

end Sys2Proof.Machine
end

