-- ==== Sys2Proof/Machine/Ops.lean ====
section
/-! DEFINITION. The named operations: byte order, the buffers' memory, access checks, acceptance and
completion of a command, and error completion, the block's only analogue of taking an exception. -/
namespace Sys2Proof.Machine

/-! ### Byte strings and integers (R10) -/

/-- `be_N(v)`: the N-byte big-endian encoding; byte `i` is `v[8(N-i)-1 : 8(N-i)-8]`. -/
def beBytes (n v : Nat) : List Byte :=
  (List.range n).map fun i => BitVec.ofNat 8 (v >>> (8 * (n - 1 - i)))

/-- `from_be(B)`: the unsigned integer whose big-endian encoding is `B`. -/
def fromBe (b : List Byte) : Nat := b.foldl (fun a x => a * 256 + x.toNat) 0

/-- The 32-bit word formed from 4 bytes big-endian (R63, R101). -/
def wordOfBytes (b : List Byte) : Word := BitVec.ofNat 32 (fromBe b)

/-- Byte `j` of a word: bits `31-8j : 24-8j` (R39, R63). -/
def byteOfWord (w : Word) (j : Nat) : Byte := w.extractLsb' (24 - 8 * j) 8

/-- `ndigits(v)` (R11): the least d ≥ 1 with `v < 10^d`, searched upward from `d`. -/
def leastPower (v : Nat) : (fuel d : Nat) → Nat
  | 0, d => d
  | fuel + 1, d => if v < 10 ^ d then d else leastPower v fuel (d + 1)

/-- `ndigits(v)`, the number of decimal digits of `v ≥ 1` (R11). The search stops after at most `v` moves,
since `v < 10^v`. -/
def ndigits (v : Nat) : Nat := leastPower v v 1

/-! ### The buffers' memory (R47, R48) -/

/-- The first window offset of KEY (R47). -/
abbrev keyBase : Nat := 0x100

/-- The first window offset of MSG (R48). -/
abbrev msgBase : Nat := 0x180

/-- One past the last window offset (R8, R60). -/
abbrev windowEnd : Nat := 0x200

/-- What an unlisted byte of the buffers reads as. R50: "Every KEY and MSG byte = 0." -/
abbrev Memory.unlisted : Byte := 0

/-- The byte at a window offset. -/
def Memory.read : List Host.Cell → Nat → Byte
  | [], _ => Memory.unlisted
  | (k, x) :: m, a => if k = a then x else Memory.read m a

/-- Write one byte, keeping the canonical form: a byte equal to the unlisted value is not listed. -/
def Memory.write : List Host.Cell → Nat → Byte → List Host.Cell
  | [], a, v => if v = Memory.unlisted then [] else [(a, v)]
  | (k, x) :: m, a, v =>
    if a < k then (if v = Memory.unlisted then (k, x) :: m else (a, v) :: (k, x) :: m)
    else if a = k then (if v = Memory.unlisted then m else (a, v) :: m)
    else (k, x) :: Memory.write m a v

/-- The list is canonical from offset `lo` on: offsets strictly rising, below the window's end, and no entry
equal to the unlisted value. -/
def Memory.wfFrom : Nat → List Host.Cell → Bool
  | _, [] => true
  | lo, (k, x) :: m =>
    decide (lo ≤ k) && (decide (k < windowEnd) && (x != Memory.unlisted && Memory.wfFrom (k + 1) m))

/-- The canonical form of the buffers' memory: every listed offset lies in the KEY or the MSG window. -/
def Memory.wf (m : List Host.Cell) : Bool := Memory.wfFrom keyBase m

/-- The word whose four bytes start at `a`, the first in bits 31:24 (R47, R48, R63). -/
def Memory.readWord (m : List Host.Cell) (a : Nat) : Word :=
  Memory.read m a ++ Memory.read m (a + 1) ++ Memory.read m (a + 2) ++ Memory.read m (a + 3)

/-- Write a word's four bytes from `a` on, bits 31:24 first. -/
def Memory.writeWord (m : List Host.Cell) (a : Nat) (v : Word) : List Host.Cell :=
  Memory.write
    (Memory.write
      (Memory.write
        (Memory.write m a (byteOfWord v 0))
        (a + 1) (byteOfWord v 1))
      (a + 2) (byteOfWord v 2))
    (a + 3) (byteOfWord v 3)

/-- `n` bytes from `a` on. -/
def Memory.readBytes (m : List Host.Cell) (a n : Nat) : List Byte :=
  (List.range n).map fun i => Memory.read m (a + i)

/-! ### The bus (R60, R64) -/

/-- The window offset of a host address (R60): "a host access to address `BASE + off` is an access to offset
`off`"; none for an address outside the window. -/
def windowOffset (addr : Nat) : Option Nat :=
  if Config.base ≤ addr ∧ addr < Config.base + windowEnd then some (addr - Config.base) else none

/-- The offset of a host access that the block defines, or the refusal of one that it does not (R64). -/
def checkAccess (addr bytes : Nat) : Except Refusal Nat :=
  if bytes ≠ 4 then .error .accessWidth
  else match windowOffset addr with
    | none => .error .outsideWindow
    | some off => if off % 4 ≠ 0 then .error .misaligned else .ok off

/-! ### Lifecycle of a command (R86, R87) -/

/-- The numeric code of an error (R210). -/
def ErrCode.code : ErrCode → BitVec 4
  | .invalidDigitCount => 1
  | .invalidThreshold => 2
  | .timeUnderflow => 3
  | .periodZero => 4
  | .lengthRange => 5
  | .illegalCmd => 6

/-- STATUS.BUSY (R24): 1 exactly in RUNNING (R44). -/
def State.busy (s : State) : Bool :=
  match s.phase with
  | .idle => false
  | .running _ => true

/-- A host write dropped while BUSY = 1 (R49): it changes no register, starts no command, and sets COLL. -/
def State.collide (s : State) : State := { s with coll := true }

/-- The iteration state a command starts with: a VERIFY starts in CHECK_KEY at acceptance (R181). -/
def startIter : Instr → Option VerifyIter
  | .verify => some .checkKey
  | .hmac | .trunc | .hotp | .cinc | .totpc | .illegal => none

/-- Acceptance of a command word (R86, the branch with BUSY = 0): BUSY <- 1 by the phase, DONE <- 0,
ERR <- 0, LAST_OP <- w[3:0], also when the word is illegal (R27, R83). -/
def State.accept (w : Word) (s : State) : State :=
  { s with
    done := false
    err := 0
    lastOp := opField w
    phase := .running (decode w)
    iter := startIter (decode w) }

/-- The register writes of `complete(writes)` (R12, R39-R43, R45, R81). -/
def State.perform (w : Writes) (s : State) : State :=
  { s with
    digest := w.digest.getD s.digest
    offset := (w.truncation.map (·.offset)).getD s.offset
    snum := (w.truncation.map (·.snum)).getD s.snum
    code := (w.truncation.map (fun t => BitVec.ofNat 27 t.code)).getD s.code
    counter := w.counter.getD s.counter
    vsteps := (w.sync.map (·.1)).getD s.vsteps
    vctr := (w.sync.map (·.2)).getD s.vctr }

/-- The STATUS and phase part of a completion with outcome code `c` (R87): ERR <- c, BUSY <- 0 by the phase,
DONE <- 1; the iteration state ceases to exist (R44). COLL and LAST_OP are not changed. -/
def State.settle (c : BitVec 4) (s : State) : State :=
  { s with done := true, err := c, phase := .idle, iter := none }

/-- Error completion, "the block's only analogue of trap entry" (R214, R215): STATUS only is written, the
code in ERR; no mode or mask changes, control goes nowhere. There is no return from it (R216): the next
`State.accept` clears DONE and ERR. -/
def State.raiseError (e : ErrCode) (s : State) : State := s.settle e.code

/-- Completion (R87), one atomic step: the writes and ERR = 0, or the error. -/
def State.finish (o : CmdOutcome) (s : State) : State :=
  match o with
  | .complete w => (s.perform w).settle 0
  | .error e => s.raiseError e

/-! ### Reset (R240-R242) -/

/-- Assertion of the reset input: every register, field and buffer byte takes its reset value, the phase is
IDLE, a running command is aborted without results (R241, R242). What the host and the platform do next is
no state of the block. -/
def State.assertReset (s : State) : State :=
  { State.reset with resetIn := true, script := s.script, turns := s.turns, reads := s.reads }

/-- Release of the reset input. -/
def State.releaseReset (s : State) : State := { s with resetIn := false }

/-- The value a host read returned, added to what the host has seen. -/
def State.returnRead (v : Word) (s : State) : State := { s with reads := s.reads ++ [v] }

end Sys2Proof.Machine
end

