-- ==== Sys2Proof/Machine/Operands.lean ====
section
/-! DEFINITION. How operands are assembled from registers (spec/30_encoding.md R81), and the halves of the
64-bit registers (spec/20_memory.md R63, R65). -/
namespace Sys2Proof.Machine

/-- Bits 63:32 (R63). -/
def hiHalf (d : Dword) : Word := d.extractLsb' 32 32

/-- Bits 31:0 (R63). -/
def loHalf (d : Dword) : Word := d.extractLsb' 0 32

/-- Writing a `_HI` word "changes only bits 63:32" (R65). -/
def setHi (d : Dword) (v : Word) : Dword := v ++ loHalf d

/-- Writing a `_LO` word "changes only bits 31:0" (R65). -/
def setLo (d : Dword) (v : Word) : Dword := hiHalf d ++ v

/-- The 20 bytes HS of a digest: HS[4i+j] is bits `31-8j : 24-8j` of word i (R39). -/
def Digest.bytes (d : Digest) : List Byte :=
  beBytes 4 d.w0.toNat ++ (beBytes 4 d.w1.toNat ++ (beBytes 4 d.w2.toNat ++
    (beBytes 4 d.w3.toNat ++ beBytes 4 d.w4.toNat)))

/-- The largest secret and the largest HMAC message, in bytes (R8: KEY_MAX_BYTES, MSG_MAX_BYTES). -/
abbrev maxBytes : Nat := 128

/-- The key KEY[0..KEY_LEN-1] (R47, R81). -/
def State.keyBytes (s : State) : List Byte := Memory.readBytes s.mem keyBase s.keyLen.toNat

/-- The message MSG[0..MSG_LEN-1] (R48, R81). -/
def State.msgBytes (s : State) : List Byte := Memory.readBytes s.mem msgBase s.msgLen.toNat

/-- KEY_LEN > 128 (R36). -/
def State.keyTooLong (s : State) : Bool := decide (maxBytes < s.keyLen.toNat)

/-- MSG_LEN > 128 (R37). -/
def State.msgTooLong (s : State) : Bool := decide (maxBytes < s.msgLen.toNat)

/-- DIGITS is one of 6, 7 and 8 (R34, R133). -/
def State.digitsLegal (s : State) : Bool := decide (6 ≤ s.digits.toNat ∧ s.digits.toNat ≤ 8)

end Sys2Proof.Machine
end

