-- ==== Sys2Proof/Machine/Counter.lean ====
section
/-! DEFINITION. The counter increment and CINC (spec/42_counter.md R150-R152). -/
namespace Sys2Proof.Machine

/-- The increment, `(c + 1) mod 2^64` (R150). -/
def counterNext (c : Dword) : Dword := c + 1

/-- CINC (R150): it raises no error. -/
def execCinc (s : State) : Host.Outcome State Fault Refusal :=
  .next (s.finish (.complete { counter := some (counterNext s.counter) }))

end Sys2Proof.Machine
end

