-- ==== Sys2Proof/Machine/Sha1.lean ====
section
/-! DEFINITION. The SHA-1 primitive (spec/40_hmac_sha1.md R101-R106). -/
namespace Sys2Proof.Machine

/-- `ROTL_n(x)` on 32-bit words (R101). -/
def rotl (n : Nat) (x : Word) : Word := (x <<< n) ||| (x >>> (32 - n))

/-- The number of zero bytes of the padding, `(55 - L) mod 64`, the non-negative remainder (R11, R102). -/
def padZeros (len : Nat) : Nat := ((55 - (len : Int)) % 64).toNat

/-- The padded message `M || 0x80 || 0x00 * ((55 - L) mod 64) || be_8(8 * L)` (R102). -/
def shaPad (m : List Byte) : List Byte :=
  m ++ (0x80 :: (List.replicate (padZeros m.length) 0 ++ beBytes 8 (8 * m.length)))

/-- The first `n` blocks of 64 bytes (R102). -/
def shaBlocks : (n : Nat) → List Byte → List (List Byte)
  | 0, _ => []
  | n + 1, b => b.take 64 :: shaBlocks n (b.drop 64)

/-- The number of blocks of the padded form of a message of `len` bytes. -/
def shaBlockCount (len : Nat) : Nat := (len + 1 + padZeros len + 8) / 64

/-- The initial hash value (R103). -/
def shaInit : Digest := ⟨0x67452301, 0xEFCDAB89, 0x98BADCFE, 0x10325476, 0xC3D2E1F0⟩

/-- The round function f_t (R104). -/
def shaF (t : Nat) (b c d : Word) : Word :=
  if t < 20 then (b &&& c) ^^^ (~~~b &&& d)
  else if t < 40 then b ^^^ c ^^^ d
  else if t < 60 then (b &&& c) ^^^ (b &&& d) ^^^ (c &&& d)
  else b ^^^ c ^^^ d

/-- The round constant K_t (R104). -/
def shaK (t : Nat) : Word :=
  if t < 20 then 0x5A827999
  else if t < 40 then 0x6ED9EBA1
  else if t < 60 then 0x8F1BBCDC
  else 0xCA62C1D6

/-- The first `n` words of a block, 4 bytes each (R105). -/
def shaWords : (n : Nat) → List Byte → List Word
  | 0, _ => []
  | n + 1, b => wordOfBytes (b.take 4) :: shaWords n (b.drop 4)

/-- `n` further words of the message schedule, newest first: with the words so far newest first, W[t-3],
W[t-8], W[t-14] and W[t-16] are at places 2, 7, 13 and 15 (R105). -/
def shaExtend : (n : Nat) → List Word → List Word
  | 0, ws => ws
  | n + 1, ws =>
    shaExtend n (rotl 1 (ws.getD 2 0 ^^^ ws.getD 7 0 ^^^ ws.getD 13 0 ^^^ ws.getD 15 0) :: ws)

/-- The message schedule W[0..79] of a block (R105). -/
def shaSchedule (block : List Byte) : List Word := (shaExtend 64 (shaWords 16 block).reverse).reverse

/-- One round (R106); the five words are a, b, c, d, e. -/
def shaRound (t : Nat) (w : Word) (v : Digest) : Digest :=
  ⟨rotl 5 v.w0 + shaF t v.w1 v.w2 v.w3 + v.w4 + shaK t + w, v.w0, rotl 30 v.w1, v.w2, v.w3⟩

/-- The rounds from `t` on, one for each word of the schedule (R106). -/
def shaRounds : (t : Nat) → List Word → Digest → Digest
  | _, [], v => v
  | t, w :: ws, v => shaRounds (t + 1) ws (shaRound t w v)

/-- The word-by-word sum of two hash values (R106). -/
def Digest.add (x y : Digest) : Digest :=
  ⟨x.w0 + y.w0, x.w1 + y.w1, x.w2 + y.w2, x.w3 + y.w3, x.w4 + y.w4⟩

/-- The compression of one block into the hash value (R106). -/
def shaCompress (h : Digest) (block : List Byte) : Digest := h.add (shaRounds 0 (shaSchedule block) h)

/-- `SHA1(M)`, as its five words (R106). -/
def sha1 (m : List Byte) : Digest := (shaBlocks (shaBlockCount m.length) (shaPad m)).foldl shaCompress shaInit

end Sys2Proof.Machine
end

