-- ==== Sys2Proof/Machine/Hmac.lean ====
section
/-! DEFINITION. The HMAC primitive (spec/40_hmac_sha1.md R107-R109) and the HMAC command (R110). -/
namespace Sys2Proof.Machine

/-- The HMAC block size B in bytes (R107). -/
abbrev hmacBlock : Nat := 64

/-- K' (R108): the key, hashed first when it is longer than a block. -/
def hmacShortKey (key : List Byte) : List Byte :=
  if hmacBlock < key.length then (sha1 key).bytes else key

/-- K0 (R108): K' padded with zero bytes to 64 bytes. -/
def hmacKey (key : List Byte) : List Byte :=
  hmacShortKey key ++ List.replicate (hmacBlock - (hmacShortKey key).length) 0

/-- K0 with every byte XORed with a pad byte (R109). -/
def hmacPadKey (pad : Byte) (key : List Byte) : List Byte := (hmacKey key).map (· ^^^ pad)

/-- `HMAC_SHA1(K, m)` (R109). -/
def hmacSha1 (key msg : List Byte) : Digest :=
  sha1 (hmacPadKey 0x5C key ++ (sha1 (hmacPadKey 0x36 key ++ msg)).bytes)

/-- How many SHA-1 block compressions one HMAC takes: the key hash if there is one, the inner hash and the
outer hash (R249). -/
def hmacCompressions (keyLen msgLen : Nat) : Nat :=
  (if hmacBlock < keyLen then shaBlockCount keyLen else 0) +
    (shaBlockCount (hmacBlock + msgLen) + shaBlockCount (hmacBlock + 20))

/-- The outcome of HMAC (R110). -/
def State.hmacOutcome (s : State) : CmdOutcome :=
  if s.keyTooLong then .error .lengthRange
  else if s.msgTooLong then .error .lengthRange
  else .complete { digest := some (hmacSha1 s.keyBytes s.msgBytes) }

/-- HMAC (R110). -/
def execHmac (s : State) : Host.Outcome State Fault Refusal := .next (s.finish s.hmacOutcome)

end Sys2Proof.Machine
end

