-- ==== Sys2Proof/Machine/Illegal.lean ====
section
/-! DEFINITION. Illegal command words (spec/30_encoding.md R83, R87). -/
namespace Sys2Proof.Machine

/-- `exec(ILLEGAL) = Error(ILLEGAL_CMD)` (R87): it writes no result register. -/
def execIllegal (s : State) : Host.Outcome State Fault Refusal := .next (s.finish (.error .illegalCmd))

end Sys2Proof.Machine
end

