-- ==== Sys2Proof/Machine/Totp.lean ====
section
/-! DEFINITION. TOTP counter derivation, TOTPC (spec/43_totp_counter.md R160-R164). -/
namespace Sys2Proof.Machine

/-- The counter of R161 on exact integers, or the error. -/
def totpCounter (period t0 drift now : Nat) : Except ErrCode Nat :=
  if period = 0 then .error .periodZero
  else if now < t0 then .error .timeUnderflow
  else if (now - t0) / period < drift then .error .timeUnderflow
  else .ok ((now - t0) / period - drift)

/-- The outcome of TOTPC (R161). -/
def State.totpOutcome (s : State) : CmdOutcome :=
  match totpCounter s.period.toNat s.t0.toNat s.drift.toNat s.now.toNat with
  | .error e => .error e
  | .ok c => .complete { counter := some (BitVec.ofNat 64 c) }

/-- TOTPC (R161). -/
def execTotpc (s : State) : Host.Outcome State Fault Refusal := .next (s.finish s.totpOutcome)

end Sys2Proof.Machine
end

