-- ==== Sys2Proof/Machine/Truncation.lean ====
section
/-! DEFINITION. Dynamic truncation, TRUNC and HOTP (spec/41_truncation_hotp.md R130-R137). -/
namespace Sys2Proof.Machine

/-- The offset `HS[19] & 0x0F` (R131). -/
def truncOffset (hs : List Byte) : BitVec 4 := (hs.getD 19 0).setWidth 4

/-- P, the four bytes HS[offset .. offset+3] big-endian (R131). -/
def truncWindow (hs : List Byte) : Word := wordOfBytes ((hs.drop (truncOffset hs).toNat).take 4)

/-- `trunc(HS, d)` (R131). -/
def truncate (hs : List Byte) (d : Nat) : TruncResult :=
  { offset := truncOffset hs
    p := truncWindow hs
    snum := (truncWindow hs &&& 0x7FFFFFFF).setWidth 31
    code := (truncWindow hs &&& 0x7FFFFFFF).toNat % 10 ^ d }

/-- `hotp(K, c, d)` (R136). -/
def hotpCode (key : List Byte) (c : Dword) (d : Nat) : Nat :=
  (truncate (hmacSha1 key (beBytes 8 c.toNat)).bytes d).code

/-- The outcome of TRUNC (R135). -/
def State.truncOutcome (s : State) : CmdOutcome :=
  if s.digitsLegal then .complete { truncation := some (truncate s.digest.bytes s.digits.toNat) }
  else .error .invalidDigitCount

/-- TRUNC (R135). -/
def execTrunc (s : State) : Host.Outcome State Fault Refusal := .next (s.finish s.truncOutcome)

/-- The digest HOTP computes: the MAC of `be_8(COUNTER)` (R62, R137). -/
def State.hotpDigest (s : State) : Digest := hmacSha1 s.keyBytes (beBytes 8 s.counter.toNat)

/-- The outcome of HOTP (R137). -/
def State.hotpOutcome (s : State) : CmdOutcome :=
  if s.keyTooLong then .error .lengthRange
  else if s.digitsLegal then
    .complete
      { digest := some s.hotpDigest
        truncation := some (truncate s.hotpDigest.bytes s.digits.toNat) }
  else .error .invalidDigitCount

/-- HOTP (R137). -/
def execHotp (s : State) : Host.Outcome State Fault Refusal := .next (s.finish s.hotpOutcome)

end Sys2Proof.Machine
end

