-- ==== Sys2Proof/Machine/Verify.lean ====
section
/-! DEFINITION. The verification state machine and VERIFY (spec/44_verify.md R180-R190). -/
namespace Sys2Proof.Machine

/-- The range check of R185: SUBMITTED is in [100000, 99999999]. -/
def inCodeRange (submitted : Nat) : Bool := decide (100000 ≤ submitted ∧ submitted ≤ 99999999)

/-- The loop of R182 with `rem` attempts left at counter `ctr`. -/
def verifySearch (key : List Byte) (d submitted threshold : Nat) : (rem : Nat) → (ctr : Dword) → CmdOutcome
  | 0, _ => .error .invalidThreshold
  | rem + 1, ctr =>
    if hotpCode key ctr d = submitted then
      .complete { sync := some (BitVec.ofNat 16 (threshold - (rem + 1)), ctr) }
    else verifySearch key d submitted threshold rem (counterNext ctr)

/-- The outcome of VERIFY (R182). -/
def State.verifyOutcome (s : State) : CmdOutcome :=
  if s.keyTooLong then .error .lengthRange
  else if inCodeRange s.submitted.toNat then
    verifySearch s.keyBytes (ndigits s.submitted.toNat) s.submitted.toNat s.threshold.toNat
      s.threshold.toNat s.counter
  else .error .invalidDigitCount

/-- VERIFY (R182), whole in the completion step, as R44 allows. -/
def execVerify (s : State) : Host.Outcome State Fault Refusal := .next (s.finish s.verifyOutcome)

/-- One internal transition of the state machine (R181). The states DONE_OK and DONE_ERR have only the
completion of R87, which is the engine's `complete` turn. -/
def State.verifyStep (s : State) : VerifyIter → VerifyIter
  | .checkKey => if s.keyTooLong then .doneErr .lengthRange else .checkRange
  | .checkRange =>
    if inCodeRange s.submitted.toNat then .attempt s.counter s.threshold (ndigits s.submitted.toNat)
    else .doneErr .invalidDigitCount
  | .attempt ctr rem d =>
    if rem = 0 then .doneErr .invalidThreshold
    else if hotpCode s.keyBytes ctr d = s.submitted.toNat then .doneOk (s.threshold - rem) ctr
    else .attempt (counterNext ctr) (rem - 1) d
  | .doneOk steps ctr => .doneOk steps ctr
  | .doneErr e => .doneErr e

/-- How many HMACs the loop of R182 computes (R188). -/
def searchHmacs (key : List Byte) (d submitted : Nat) : (rem : Nat) → (ctr : Dword) → Nat
  | 0, _ => 0
  | rem + 1, ctr =>
    if hotpCode key ctr d = submitted then 1
    else searchHmacs key d submitted rem (counterNext ctr) + 1

/-- How many HMACs a VERIFY computes (R188, R249). -/
def State.verifyHmacs (s : State) : Nat :=
  if s.keyTooLong then 0
  else if inCodeRange s.submitted.toNat then
    searchHmacs s.keyBytes (ndigits s.submitted.toNat) s.submitted.toNat s.threshold.toNat s.counter
  else 0

end Sys2Proof.Machine
end

