-- ==== Sys2Proof/Machine/Dispatch.lean ====
section
/-! DEFINITION. `exec`: the completion step of a command (spec/30_encoding.md R87), one arm per command. -/
namespace Sys2Proof.Machine

def exec (i : Instr) (s : State) : Host.Outcome State Fault Refusal :=
  match i with
  | .hmac => Sys2Proof.Machine.execHmac s
  | .trunc => Sys2Proof.Machine.execTrunc s
  | .hotp => Sys2Proof.Machine.execHotp s
  | .cinc => Sys2Proof.Machine.execCinc s
  | .totpc => Sys2Proof.Machine.execTotpc s
  | .verify => Sys2Proof.Machine.execVerify s
  | .illegal => Sys2Proof.Machine.execIllegal s

end Sys2Proof.Machine
end

