-- ==== Sys2Proof/Machine/Flags.lean ====
section
/-! DEFINITION. STATUS (spec/10_state.md R24-R28): the word the host reads, and the effect of a host write. -/
namespace Sys2Proof.Machine

/-- The STATUS word: BUSY bit 0, DONE bit 1, ERR bits 7:4, LAST_OP bits 11:8, COLL bit 16; bits 3:2, 15:12
and 31:17 read 0 (R24-R28). -/
def State.statusWord (s : State) : Word :=
  (BitVec.ofBool s.coll).setWidth 32 <<< 16 ||| s.lastOp.setWidth 32 <<< 8 ||| s.err.setWidth 32 <<< 4 |||
    (BitVec.ofBool s.done).setWidth 32 <<< 1 ||| (BitVec.ofBool s.busy).setWidth 32

/-- A host write to STATUS (R28): bit 16 = 1 clears COLL, bit 16 = 0 leaves it; no other bit changes. -/
def State.writeStatus (v : Word) (s : State) : State :=
  if v.getLsbD 16 then { s with coll := false } else s

end Sys2Proof.Machine
end

