-- ==== Sys2Proof/Machine/RegisterMap.lean ====
section
/-! DEFINITION. The register map (spec/10_state.md R20): which register stands at an offset, its access type,
what a host read returns and what a host write does. -/
namespace Sys2Proof.Machine

/-- The rows of R20 below the reserved space, offset and register. -/
def regRows : List (Nat × Reg) :=
  [(0x000, .id), (0x004, .cmd), (0x008, .status), (0x00C, .digits),
   (0x010, .threshold), (0x014, .keyLen), (0x018, .msgLen), (0x01C, .submitted)] ++
  ([(0x020, .counterHi), (0x024, .counterLo), (0x028, .periodHi), (0x02C, .periodLo),
    (0x030, .t0Hi), (0x034, .t0Lo), (0x038, .driftHi), (0x03C, .driftLo),
    (0x040, .nowHi), (0x044, .nowLo)] ++
  [(0x050, .digest0), (0x054, .digest1), (0x058, .digest2), (0x05C, .digest3), (0x060, .digest4),
   (0x064, .offset), (0x068, .snum), (0x06C, .code), (0x070, .vsteps),
   (0x078, .vctrHi), (0x07C, .vctrLo)])

/-- The register at a word-aligned offset of the window (R20). Every other word offset is reserved (R46). -/
def regAt (off : Nat) : Reg :=
  if keyBase ≤ off ∧ off < msgBase then .key (Fin.ofNat 32 ((off - keyBase) / 4))
  else if msgBase ≤ off ∧ off < windowEnd then .msg (Fin.ofNat 32 ((off - msgBase) / 4))
  else (regRows.lookup off).getD .reserved

/-- The offset of a register by its name (R89); for the reserved space, its first offset. -/
def Reg.addr : Reg → Nat
  | .id => 0x000
  | .cmd => 0x004
  | .status => 0x008
  | .digits => 0x00C
  | .threshold => 0x010
  | .keyLen => 0x014
  | .msgLen => 0x018
  | .submitted => 0x01C
  | .counterHi => 0x020
  | .counterLo => 0x024
  | .periodHi => 0x028
  | .periodLo => 0x02C
  | .t0Hi => 0x030
  | .t0Lo => 0x034
  | .driftHi => 0x038
  | .driftLo => 0x03C
  | .nowHi => 0x040
  | .nowLo => 0x044
  | .digest0 => 0x050
  | .digest1 => 0x054
  | .digest2 => 0x058
  | .digest3 => 0x05C
  | .digest4 => 0x060
  | .offset => 0x064
  | .snum => 0x068
  | .code => 0x06C
  | .vsteps => 0x070
  | .vctrHi => 0x078
  | .vctrLo => 0x07C
  | .key i => keyBase + 4 * i.val
  | .msg i => msgBase + 4 * i.val
  | .reserved => 0x048

/-- The access column of R20. -/
def Reg.access : Reg → AccessType
  | .id | .offset | .snum | .code | .vsteps | .vctrHi | .vctrLo => .ro
  | .cmd | .key _ => .wo
  | .status => .w1c
  | .digits | .threshold | .keyLen | .msgLen | .submitted
  | .counterHi | .counterLo | .periodHi | .periodLo | .t0Hi | .t0Lo | .driftHi | .driftLo | .nowHi | .nowLo
  | .digest0 | .digest1 | .digest2 | .digest3 | .digest4 | .msg _ => .rw
  | .reserved => .reserved

/-- Whether a host write to the register is dropped while BUSY = 1. The list of R49 (CMD, the operand
registers, DIGEST, the KEY and MSG windows) is that of the WO and RW registers. -/
def Reg.dropsWhileBusy (r : Reg) : Bool :=
  match r.access with
  | .wo | .rw => true
  | .ro | .w1c | .reserved => false

/-- ID: ASCII "OTP1" (R22). -/
def idValue : Word := 0x4F545031

/-- The value a host read of a register returns (R20-R48). CMD and the KEY window read 0 (R23, R47), and so
do the reserved offsets (R46) and all bits outside a register's width. -/
def readReg (r : Reg) (s : State) : Word :=
  match r with
  | .id => idValue
  | .cmd => 0
  | .status => s.statusWord
  | .digits => s.digits.setWidth 32
  | .threshold => s.threshold.setWidth 32
  | .keyLen => s.keyLen.setWidth 32
  | .msgLen => s.msgLen.setWidth 32
  | .submitted => s.submitted
  | .counterHi => hiHalf s.counter
  | .counterLo => loHalf s.counter
  | .periodHi => hiHalf s.period
  | .periodLo => loHalf s.period
  | .t0Hi => hiHalf s.t0
  | .t0Lo => loHalf s.t0
  | .driftHi => hiHalf s.drift
  | .driftLo => loHalf s.drift
  | .nowHi => hiHalf s.now
  | .nowLo => loHalf s.now
  | .digest0 => s.digest.w0
  | .digest1 => s.digest.w1
  | .digest2 => s.digest.w2
  | .digest3 => s.digest.w3
  | .digest4 => s.digest.w4
  | .offset => s.offset.setWidth 32
  | .snum => s.snum.setWidth 32
  | .code => s.code.setWidth 32
  | .vsteps => s.vsteps.setWidth 32
  | .vctrHi => hiHalf s.vctr
  | .vctrLo => loHalf s.vctr
  | .key _ => 0
  | .msg i => Memory.readWord s.mem (msgBase + 4 * i.val)
  | .reserved => 0

/-- What a host write that is not dropped does to a register (R20, R68): a write to CMD is accepted (R86), a
write to STATUS may clear COLL (R28), a write to an RO register or a reserved offset is ignored (R46, R49),
every other write stores its value in the bits the register has. -/
def writeReg (r : Reg) (v : Word) (s : State) : State :=
  match r with
  | .cmd => s.accept v
  | .status => s.writeStatus v
  | .digits => { s with digits := v.setWidth 4 }
  | .threshold => { s with threshold := v.setWidth 16 }
  | .keyLen => { s with keyLen := v.setWidth 8 }
  | .msgLen => { s with msgLen := v.setWidth 8 }
  | .submitted => { s with submitted := v }
  | .counterHi => { s with counter := setHi s.counter v }
  | .counterLo => { s with counter := setLo s.counter v }
  | .periodHi => { s with period := setHi s.period v }
  | .periodLo => { s with period := setLo s.period v }
  | .t0Hi => { s with t0 := setHi s.t0 v }
  | .t0Lo => { s with t0 := setLo s.t0 v }
  | .driftHi => { s with drift := setHi s.drift v }
  | .driftLo => { s with drift := setLo s.drift v }
  | .nowHi => { s with now := setHi s.now v }
  | .nowLo => { s with now := setLo s.now v }
  | .digest0 => { s with digest := { s.digest with w0 := v } }
  | .digest1 => { s with digest := { s.digest with w1 := v } }
  | .digest2 => { s with digest := { s.digest with w2 := v } }
  | .digest3 => { s with digest := { s.digest with w3 := v } }
  | .digest4 => { s with digest := { s.digest with w4 := v } }
  | .key i => { s with mem := Memory.writeWord s.mem (keyBase + 4 * i.val) v }
  | .msg i => { s with mem := Memory.writeWord s.mem (msgBase + 4 * i.val) v }
  | .id | .offset | .snum | .code | .vsteps | .vctrHi | .vctrLo | .reserved => s

/-- `MemRead(off, 4)`: the value returned; the block's state does not change (R67). -/
def memRead (off : Nat) (s : State) : Word := readReg (regAt off) s

/-- `MemWrite(off, 4, v)`: dropped with COLL set while BUSY = 1 where R49 says so, else performed. -/
def memWrite (off : Nat) (v : Word) (s : State) : State :=
  if s.busy && (regAt off).dropsWhileBusy then s.collide else writeReg (regAt off) v s

end Sys2Proof.Machine
end

