-- ==== Sys2Proof/Machine/HostProgram.lean ====
section
/-! DEFINITION. The host's steps: its word accesses (spec/20_memory.md R64), the `poll` loop, and the host
assembly syntax with its pseudo-instructions (spec/30_encoding.md R89, R90). -/
namespace Sys2Proof.Machine

/-- A host access: performed and its read value returned, or refused where R64 refuses it. -/
def hostAccess (a : Access) (s : State) : Host.Outcome State Fault Refusal :=
  match a with
  | .read addr bytes =>
    match checkAccess addr bytes with
    | .error r => .refused r
    | .ok off => .next (s.returnRead (memRead off s))
  | .write addr bytes v =>
    match checkAccess addr bytes with
    | .error r => .refused r
    | .ok off => .next (memWrite off v s)

/-- One round of `poll`, with `rest` the host's operations after it (R90): `rd STATUS`, and again unless bit 0
of the value read is 0. -/
def hostPoll (rest : List HostOp) (s : State) : State :=
  if s.statusWord.getLsbD 0 then s.returnRead s.statusWord
  else { s.returnRead s.statusWord with script := rest }

/-- The host's turn: its next operation in program order (R69), nothing when its program has ended. -/
def hostTurn (s : State) : Host.Outcome State Fault Refusal :=
  match s.script with
  | [] => .next s
  | .poll :: rest => .next (hostPoll rest s)
  | .access a :: rest => hostAccess a { s with script := rest }

/-- The 64-bit registers by name (R12, R29-R33, R45). -/
inductive Reg64 where
  | counter | period | t0 | drift | now | vctr
deriving DecidableEq, Repr

/-- The `_HI` word of a 64-bit register. -/
def Reg64.hi : Reg64 → Reg
  | .counter => .counterHi
  | .period => .periodHi
  | .t0 => .t0Hi
  | .drift => .driftHi
  | .now => .nowHi
  | .vctr => .vctrHi

/-- The `_LO` word of a 64-bit register. -/
def Reg64.lo : Reg64 → Reg
  | .counter => .counterLo
  | .period => .periodLo
  | .t0 => .t0Lo
  | .drift => .driftLo
  | .now => .nowLo
  | .vctr => .vctrLo

/-- A statement of a host program (R89, R90). A register name as OFF is `Reg.addr`; a mnemonic as V is
`encode`. -/
inductive Stmt where
  | wr (off : Nat) (v : Word)
  | rd (off : Nat)
  | wr64 (r : Reg64) (v : Dword)
  | rd64 (r : Reg64)
  | poll
  | exec (i : Instr)
  | ldkey (b : List Byte)
  | ldmsg (b : List Byte)
deriving DecidableEq, Repr

/-- `wr OFF, V` is `MemWrite(OFF, 4, V)` (R89), at the host address BASE + OFF (R60). -/
def wrOp (off : Nat) (v : Word) : HostOp := .access (.write (Config.base + off) 4 v)

/-- `rd OFF` is `MemRead(OFF, 4)` (R89). -/
def rdOp (off : Nat) : HostOp := .access (.read (Config.base + off) 4)

/-- The buffer word `from_be(B[4i..4i+3])`, bytes past the end taken as 0 (R90). -/
def bufferWord (b : List Byte) (i : Nat) : Word :=
  wordOfBytes [b.getD (4 * i) 0, b.getD (4 * i + 1) 0, b.getD (4 * i + 2) 0, b.getD (4 * i + 3) 0]

/-- The word writes that load a byte string into a buffer, i in 0..ceil(len(B)/4)-1 (R90). -/
def loadOps (base : Nat) (b : List Byte) : List HostOp :=
  (List.range ((b.length + 3) / 4)).map fun i => wrOp (base + 4 * i) (bufferWord b i)

/-- The expansion of a statement into host operations (R89, R90). -/
def Stmt.expand : Stmt → List HostOp
  | .wr off v => [wrOp off v]
  | .rd off => [rdOp off]
  | .wr64 r v => [wrOp r.hi.addr (hiHalf v), wrOp r.lo.addr (loHalf v)]
  | .rd64 r => [rdOp r.hi.addr, rdOp r.lo.addr]
  | .poll => [.poll]
  | .exec i => [wrOp Reg.cmd.addr (encode i), .poll]
  | .ldkey b => loadOps keyBase b ++ [wrOp Reg.keyLen.addr (BitVec.ofNat 32 b.length)]
  | .ldmsg b => loadOps msgBase b ++ [wrOp Reg.msgLen.addr (BitVec.ofNat 32 b.length)]

/-- A host program, expanded. -/
def expandProgram (p : List Stmt) : List HostOp := p.flatMap Stmt.expand

end Sys2Proof.Machine
end

