-- ==== Sys2Proof/Machine/Engine.lean ====
section
/-! DEFINITION. The moves of the agents (spec/30_encoding.md R87, R88; spec/44_verify.md R181;
spec/70_reset_and_hazards.md R240). -/
namespace Sys2Proof.Machine

/-- The engine's completion step, "enabled whenever the phase is RUNNING(op)" (R87). Where it is not enabled
the turn passes (log 12). -/
def completeTurn (s : State) : Host.Outcome State Fault Refusal :=
  match s.phase with
  | .idle => .next s
  | .running op => exec op s

/-- One internal transition of a running VERIFY (R181); it changes nothing the host can see. -/
def workTurn (s : State) : State := { s with iter := s.iter.map s.verifyStep }

/-- One turn. While reset is asserted the block performs no host access and no engine step (R240). -/
def takeTurn (t : Turn) (s : State) : Host.Outcome State Fault Refusal :=
  match t with
  | .assertReset => .next s.assertReset
  | .releaseReset => .next s.releaseReset
  | .host => if s.resetIn then .next s else hostTurn s
  | .work => if s.resetIn then .next s else .next (workTurn s)
  | .complete => if s.resetIn then .next s else completeTurn s

/-- The turn taken when the schedule names none: the engine completes as soon as it can, else the host moves.
With a finite schedule before it, every command completes after finitely many host accesses: the fairness of
R88 (log 1). -/
def defaultTurn (s : State) : Turn :=
  if s.busy then .complete else .host

/-- The acceptance of a command word as an instruction placed for the engine's very next move: the state right
after `MemWrite(CMD, 4, w)` on an idle block (R86), with the completion as the next turn. -/
def placeCommand (w : Word) (s : State) : State :=
  { s.accept w with resetIn := false, turns := .complete :: s.turns }

end Sys2Proof.Machine
end

