-- ==== Sys2Proof/Machine/Step.lean ====
section
/-! DEFINITION. One step of the machine: one move of one agent (spec/20_memory.md R69). -/
namespace Sys2Proof.Machine

/-- The next turn of the schedule, or the default turn when the schedule is empty. -/
def step (s : State) : Host.Outcome State Fault Refusal :=
  match s.turns with
  | [] => takeTurn (defaultTurn s) s
  | t :: ts => takeTurn t { s with turns := ts }

/-- The command word `w` of `nbits` bits, placed where the engine takes its next command: accepted (R86), so
that the very next step completes it (R87). No memory holds a command word (R74); log 3. -/
def State.withFetchWord (s : State) (nbits w : Nat) : State := placeCommand (wordOfBits nbits w) s

end Sys2Proof.Machine
end

