-- ==== Sys2Proof/Safety.lean ====
section
/-! DEFINITION. The terms claims are stated in: a command's outcome as a function of the registers (R13), who
moves next, the invariants of the block, the end and the observation of a host program (R256). -/
namespace Sys2Proof.Machine

/-- R13: "Each command is specified as a pure function from the engine's operand registers ... to an
outcome." -/
def commandOutcome (i : Instr) (s : State) : CmdOutcome :=
  match i with
  | .hmac => s.hmacOutcome
  | .trunc => s.truncOutcome
  | .hotp => s.hotpOutcome
  | .cinc => .complete { counter := some (counterNext s.counter) }
  | .totpc => s.totpOutcome
  | .verify => s.verifyOutcome
  | .illegal => .error .illegalCmd

/-! ### Who moves next -/

/-- The turn the next step takes. -/
def State.nextTurn (s : State) : Turn :=
  match s.turns with
  | [] => defaultTurn s
  | t :: _ => t

/-- The next step is the engine's completion of `i` (R87). -/
def State.completesNext (s : State) (i : Instr) : Prop :=
  s.nextTurn = .complete ∧ s.resetIn = false ∧ s.phase = .running i

/-- The next step is the host's word write of `v` at window offset `off`. -/
def State.hostWritesNext (s : State) (off : Nat) (v : Word) : Prop :=
  s.nextTurn = .host ∧ s.resetIn = false ∧
    ∃ rest, s.script = .access (.write (Config.base + off) 4 v) :: rest

/-- The next step is a host word write at window offset `off` that is not dropped (R49). -/
def State.hostStoresNext (s : State) (off : Nat) : Prop :=
  s.busy = false ∧ ∃ v, s.hostWritesNext off v

/-- The next step asserts the reset input (R240). -/
def State.resetsNext (s : State) : Prop := s.nextTurn = .assertReset

/-! ### Widths (R20) -/

/-- The column "width used" of R20 for the RW registers, in bits. -/
def Reg.width : Reg → Nat
  | .digits => 4
  | .threshold => 16
  | .keyLen | .msgLen => 8
  | _ => 32

/-! ### Invariants -/

/-- What the rules say of the registers between any two steps:
the buffers' memory is canonical (R47, R48);
STATUS.ERR holds a code 0..6 (R26, R210);
while BUSY = 1, DONE = 0 (R24, R25), and ERR = 0 unless DONE = 1 (R26);
LAST_OP is the OP field of the running command, unless its word is illegal (R27);
CODE is SNUM mod 10^d for a legal digit count d (R42). -/
structure State.Inv (s : State) : Prop where
  mem : Memory.wf s.mem = true
  err : s.err.toNat ≤ 6
  busy : s.busy = true → s.done = false
  idleErr : s.done = false → s.err = 0
  lastOp : ∀ i, s.phase = .running i → i ≠ .illegal → s.lastOp = opField (encode i)
  code : ∃ d, (d = 6 ∨ d = 7 ∨ d = 8) ∧ s.code.toNat = s.snum.toNat % 10 ^ d

/-- What the state machine of R181 has established when it stands at `it`: the checks it has passed, the
counters it has tried without a match, and in its final states the outcome of R182. -/
def State.iterOk (s : State) : VerifyIter → Prop
  | .checkKey => True
  | .checkRange => s.keyLen.toNat ≤ 128
  | .attempt ctr rem d =>
    s.keyLen.toNat ≤ 128 ∧ 100000 ≤ s.submitted.toNat ∧ s.submitted.toNat ≤ 99999999 ∧
      d = ndigits s.submitted.toNat ∧ rem.toNat ≤ s.threshold.toNat ∧
      ctr = s.counter + BitVec.ofNat 64 (s.threshold.toNat - rem.toNat) ∧
      ∀ j, j < s.threshold.toNat - rem.toNat →
        hotpCode s.keyBytes (s.counter + BitVec.ofNat 64 j) d ≠ s.submitted.toNat
  | .doneOk steps ctr => s.verifyOutcome = .complete { sync := some (steps, ctr) }
  | .doneErr e => s.verifyOutcome = .error e

/-- The iteration state "exists only while a VERIFY runs" (R44), and stands where R181 can stand. -/
structure State.IterInv (s : State) : Prop where
  onlyVerify : s.iter.isSome = true ↔ s.phase = .running .verify
  agrees : ∀ it, s.iter = some it → s.iterOk it

/-- The outcome a final state of R181 reports. -/
def VerifyIter.outcome : VerifyIter → Option CmdOutcome
  | .doneOk steps ctr => some (.complete { sync := some (steps, ctr) })
  | .doneErr e => some (.error e)
  | .checkKey | .checkRange | .attempt _ _ _ => none

/-- `n` internal transitions from `it` (R181). -/
def State.verifySteps (s : State) : (n : Nat) → VerifyIter → VerifyIter
  | 0, it => it
  | n + 1, it => s.verifySteps n (s.verifyStep it)

/-! ### Observation -/

/-- A host program has ended: "its last statement has been performed and STATUS.BUSY = 0" (R256). -/
def State.programEnded (s : State) : Bool := s.script.isEmpty && !s.busy

/-- The observation of R256: the register file as host reads show it, KEY unreadable. -/
def State.observation (s : State) : List Word := (List.range 128).map fun i => memRead (4 * i) s

/-- The two states agree on the operands `i` reads (R81, the column "reads"). -/
def sameOperands (i : Instr) (s s' : State) : Prop :=
  match i with
  | .hmac => s.keyLen = s'.keyLen ∧ s.msgLen = s'.msgLen ∧
      (∀ n, n < s.keyLen.toNat → Memory.read s.mem (keyBase + n) = Memory.read s'.mem (keyBase + n)) ∧
      ∀ n, n < s.msgLen.toNat → Memory.read s.mem (msgBase + n) = Memory.read s'.mem (msgBase + n)
  | .trunc => s.digest = s'.digest ∧ s.digits = s'.digits
  | .hotp => s.keyLen = s'.keyLen ∧ s.counter = s'.counter ∧ s.digits = s'.digits ∧
      ∀ n, n < s.keyLen.toNat → Memory.read s.mem (keyBase + n) = Memory.read s'.mem (keyBase + n)
  | .cinc => s.counter = s'.counter
  | .totpc => s.period = s'.period ∧ s.t0 = s'.t0 ∧ s.drift = s'.drift ∧ s.now = s'.now
  | .verify => s.keyLen = s'.keyLen ∧ s.counter = s'.counter ∧ s.submitted = s'.submitted ∧
      s.threshold = s'.threshold ∧
      ∀ n, n < s.keyLen.toNat → Memory.read s.mem (keyBase + n) = Memory.read s'.mem (keyBase + n)
  | .illegal => True

end Sys2Proof.Machine
end

