-- ==== Sys2Proof/Certificates/Slice0/Obligations.lean ====
section
/-! DEFINITION. The statements for the provers. Each docstring names the rule of spec/ it formalises. A
register of the spec is named by its field of State; `Memory.read m (0x100 + n)` is KEY[n] and
`Memory.read m (0x180 + n)` is MSG[n]. -/

open Sys2Proof Sys2Proof.Machine

/-! ### Reset -/

/-- R50: the reset value of every register, field and buffer byte, and the phase. -/
def Obligations.ResetLeavesSpecValues : Prop :=
  State.reset.statusWord = 0 ∧
  State.reset.busy = false ∧ State.reset.done = false ∧ State.reset.coll = false ∧
  State.reset.err = 0 ∧ State.reset.lastOp = 0 ∧
  State.reset.counter = 0 ∧ State.reset.period = 30 ∧ State.reset.t0 = 0 ∧ State.reset.drift = 2 ∧
  State.reset.now = 0 ∧
  State.reset.digits = 6 ∧ State.reset.threshold = 15 ∧ State.reset.keyLen = 20 ∧
  State.reset.msgLen = 0 ∧ State.reset.submitted = 0 ∧
  State.reset.digest = ⟨0, 0, 0, 0, 0⟩ ∧ State.reset.offset = 0 ∧ State.reset.snum = 0 ∧
  State.reset.code = 0 ∧ State.reset.vsteps = 0 ∧ State.reset.vctr = 0 ∧
  (∀ a, Memory.read State.reset.mem a = 0) ∧
  State.reset.phase = .idle ∧ State.reset.iter = none

/-- R20, R46: what a host reads right after reset at every word offset of the window: the reset column. -/
def Obligations.ResetReadsResetColumn : Prop :=
  ∀ off, off < 0x200 → off % 4 = 0 →
    memRead off State.reset =
      if off = 0x000 then 0x4F545031
      else if off = 0x00C then 6
      else if off = 0x010 then 15
      else if off = 0x014 then 20
      else if off = 0x02C then 30
      else if off = 0x03C then 2
      else 0

/-- R241, R242: asserting reset, at any time and also while a command runs, puts the block in its reset state;
nothing of a running command is written. The host's program, the schedule and what the host has read are no
state of the block; that reset acts at its assertion is the model's choice (log 10). -/
def Obligations.ResetAbortsRunningCommand : Prop :=
  ∀ (s : State) (ts : List Turn), s.turns = .assertReset :: ts →
    step s = .next
      { State.reset with resetIn := true, script := s.script, turns := ts, reads := s.reads }

/-- R240: "While reset is asserted the block performs no host access and no engine step", whether the schedule
names the turn or is empty (log 1). That the host's operation stays pending is the model's choice (log 10). -/
def Obligations.ResetHeldStopsBlock : Prop :=
  (∀ (s : State) (t : Turn) (ts : List Turn), s.resetIn = true → s.turns = t :: ts →
    t = .host ∨ t = .work ∨ t = .complete → step s = .next { s with turns := ts }) ∧
  ∀ s : State, s.resetIn = true → s.turns = [] → step s = .next s

/-! ### Invariants -/

/-- The register invariant holds right after reset. -/
def Obligations.ResetSatisfiesRegisterInvariant : Prop := State.reset.Inv

/-- Every step keeps the register invariant (`State.Inv`): ERR in 0..6, DONE = 0 while BUSY = 1, ERR = 0 unless
DONE = 1, LAST_OP the running command's OP, CODE = SNUM mod 10^d, and the list that holds KEY and MSG canonical.
The canonical list is the model's own form of the two buffers (log 5), no rule of the spec. -/
def Obligations.StepKeepsRegisterInvariant : Prop :=
  ∀ s t : State, s.Inv → step s = .next t → t.Inv

/-- No VERIFY iteration state exists right after reset (R50). -/
def Obligations.ResetSatisfiesIterationInvariant : Prop := State.reset.IterInv

/-- Every step keeps the VERIFY iteration state (R44, R181) where the state machine can stand on the operands
as they are: the operands cannot change while it runs. -/
def Obligations.StepKeepsIterationInvariant : Prop :=
  ∀ s t : State, s.IterInv → step s = .next t → t.IterInv

/-! ### Encoding -/

/-- R82, R85: each of the six words selects its command, and no other word does; R83: every other word is
ILLEGAL, that is, OP is 0 or 7..15 or RSV is not 0. -/
def Obligations.DecodeSelectsByWholeWord : Prop :=
  ∀ w : Word,
    (decode w = .hmac ↔ w = 0x00000001) ∧ (decode w = .trunc ↔ w = 0x00000002) ∧
    (decode w = .hotp ↔ w = 0x00000003) ∧ (decode w = .cinc ↔ w = 0x00000004) ∧
    (decode w = .totpc ↔ w = 0x00000005) ∧ (decode w = .verify ↔ w = 0x00000006) ∧
    (decode w = .illegal ↔
      w.extractLsb' 4 28 ≠ 0 ∨ w.extractLsb' 0 4 = 0 ∨ 7 ≤ (w.extractLsb' 0 4).toNat)

/-- Encoding and decoding agree both ways: a command's word decodes to it, and a word that selects a command
is the one the encoder writes. -/
def Obligations.EncodeDecodeRoundTrip : Prop :=
  (∀ i : Instr, i.wf = true → decode (encode i) = i) ∧
  (∀ w : Word, WellFormed.commandWord w = true → encode (decode w) = w) ∧
  (∀ w : Word, WellFormed.commandWord w = true ↔ decode w ≠ .illegal)

/-- Words written out bit by bit from R80 and R82: RSV in bits 31:4, OP in bits 3:0. -/
def Obligations.SampleWordsDecode : Prop :=
  decode 0b00000000000000000000000000000011#32 = .hotp ∧
  decode 0b00000000000000000000000000000110#32 = .verify ∧
  decode 0b00000000000000000000000000000111#32 = .illegal ∧
  decode 0b10000000000000000000000000000011#32 = .illegal ∧
  decode 0b00000000000000000000000000010001#32 = .illegal

/-! ### The bus and the register map -/

/-- R60, R64: a host access has a step exactly when it is a 4-byte access at BASE + off for a word-aligned
off in [0x000, 0x1FC]; every other access is refused. Under which name it is refused, and that the width is
looked at before the window and the window before the alignment, is the model's choice (log 7). -/
def Obligations.OnlyWordAccessesInWindow : Prop :=
  ∀ (s : State) (addr bytes : Nat) (v : Word),
    ((∃ t, hostAccess (.read addr bytes) s = .next t) ↔
      ∃ off, addr = Config.base + off ∧ bytes = 4 ∧ off % 4 = 0 ∧ off ≤ 0x1FC) ∧
    ((∃ t, hostAccess (.write addr bytes v) s = .next t) ↔
      ∃ off, addr = Config.base + off ∧ bytes = 4 ∧ off % 4 = 0 ∧ off ≤ 0x1FC) ∧
    (∀ a, a = .read addr bytes ∨ a = .write addr bytes v →
      ((∃ t, hostAccess a s = .next t) ∨ ∃ r, hostAccess a s = .refused r) ∧
      (bytes ≠ 4 → hostAccess a s = .refused .accessWidth) ∧
      (bytes = 4 → addr < Config.base ∨ Config.base + 0x200 ≤ addr →
        hostAccess a s = .refused .outsideWindow) ∧
      (bytes = 4 → ∀ off, addr = Config.base + off → off < 0x200 → off % 4 ≠ 0 →
        hostAccess a s = .refused .misaligned))

/-- R67: a host read returns the register's content and changes no state of the block; the read after it
returns the same value. -/
def Obligations.ReadsHaveNoSideEffects : Prop :=
  ∀ (s : State) (off : Nat) (rest : List HostOp), off % 4 = 0 → off ≤ 0x1FC →
    s.script = .access (.read (Config.base + off) 4) :: rest →
    hostTurn s = .next { s with script := rest, reads := s.reads ++ [memRead off s] } ∧
    memRead off { s with script := rest, reads := s.reads ++ [memRead off s] } = memRead off s

/-- R22: ID reads 0x4F545031 in every state, writes to it are ignored, and reset leaves it. -/
def Obligations.IdentificationIsConstant : Prop :=
  ∀ (s : State) (v : Word),
    memRead 0x000 s = 0x4F545031 ∧ memWrite 0x000 v s = s ∧ memRead 0x000 s.assertReset = 0x4F545031

/-- R46: the reserved offsets read 0, ignore writes and never set COLL, whether or not the block is busy. -/
def Obligations.ReservedOffsetsInert : Prop :=
  ∀ (s : State) (off : Nat) (v : Word),
    off = 0x048 ∨ off = 0x04C ∨ off = 0x074 ∨ (off % 4 = 0 ∧ 0x080 ≤ off ∧ off ≤ 0x0FC) →
    memRead off s = 0 ∧ memWrite off v s = s

/-- R20: what a host reads of each operand register is that register, zero-extended, a 64-bit one by its halves
(R63); and on an idle block an RW register reads back what was written, in the bits it has: bits outside its width
read 0. -/
def Obligations.WritableRegistersReadBack : Prop :=
  (∀ s : State,
    memRead 0x00C s = s.digits.setWidth 32 ∧ memRead 0x010 s = s.threshold.setWidth 32 ∧
    memRead 0x014 s = s.keyLen.setWidth 32 ∧ memRead 0x018 s = s.msgLen.setWidth 32 ∧
    memRead 0x01C s = s.submitted ∧
    memRead 0x020 s = s.counter.extractLsb' 32 32 ∧ memRead 0x024 s = s.counter.extractLsb' 0 32 ∧
    memRead 0x028 s = s.period.extractLsb' 32 32 ∧ memRead 0x02C s = s.period.extractLsb' 0 32 ∧
    memRead 0x030 s = s.t0.extractLsb' 32 32 ∧ memRead 0x034 s = s.t0.extractLsb' 0 32 ∧
    memRead 0x038 s = s.drift.extractLsb' 32 32 ∧ memRead 0x03C s = s.drift.extractLsb' 0 32 ∧
    memRead 0x040 s = s.now.extractLsb' 32 32 ∧ memRead 0x044 s = s.now.extractLsb' 0 32) ∧
  ∀ (s : State) (r : Reg) (v : Word), Memory.wf s.mem = true → s.busy = false → r.access = .rw →
    memRead r.addr (memWrite r.addr v s) = (v.setWidth r.width).setWidth 32

/-- A host write other than a command changes what the host reads of no other register (R20, R68). -/
def Obligations.WriteLeavesOtherRegisters : Prop :=
  ∀ (s : State) (r r' : Reg) (v : Word), Memory.wf s.mem = true → r ≠ .cmd → r ≠ r' →
    s.busy = false → memRead r'.addr (memWrite r.addr v s) = memRead r'.addr s

/-- R65: on an idle block a `_HI` write changes only bits 63:32 and a `_LO` write only bits 31:0 of COUNTER,
PERIOD, T0, DRIFT and NOW, and nothing else; no 64-bit access exists: each is refused. -/
def Obligations.HalvesAreIndependent : Prop :=
  (∀ (s : State) (addr : Nat) (v : Word),
    (∃ r, hostAccess (.read addr 8) s = .refused r) ∧ ∃ r, hostAccess (.write addr 8 v) s = .refused r) ∧
  ∀ (s : State) (v : Word), s.busy = false →
    memWrite 0x020 v s = { s with counter := v ++ s.counter.extractLsb' 0 32 } ∧
    memWrite 0x024 v s = { s with counter := s.counter.extractLsb' 32 32 ++ v } ∧
    memWrite 0x028 v s = { s with period := v ++ s.period.extractLsb' 0 32 } ∧
    memWrite 0x02C v s = { s with period := s.period.extractLsb' 32 32 ++ v } ∧
    memWrite 0x030 v s = { s with t0 := v ++ s.t0.extractLsb' 0 32 } ∧
    memWrite 0x034 v s = { s with t0 := s.t0.extractLsb' 32 32 ++ v } ∧
    memWrite 0x038 v s = { s with drift := v ++ s.drift.extractLsb' 0 32 } ∧
    memWrite 0x03C v s = { s with drift := s.drift.extractLsb' 32 32 ++ v } ∧
    memWrite 0x040 v s = { s with now := v ++ s.now.extractLsb' 0 32 } ∧
    memWrite 0x044 v s = { s with now := s.now.extractLsb' 32 32 ++ v }

/-- The STATUS word (R24-R28): each field at its bits, the bits between them 0. -/
def Obligations.StatusWordLayout : Prop :=
  ∀ s : State,
    (memRead 0x008 s).getLsbD 0 = s.busy ∧ (memRead 0x008 s).getLsbD 1 = s.done ∧
    (memRead 0x008 s).extractLsb' 2 2 = 0 ∧ (memRead 0x008 s).extractLsb' 4 4 = s.err ∧
    (memRead 0x008 s).extractLsb' 8 4 = s.lastOp ∧ (memRead 0x008 s).extractLsb' 12 4 = 0 ∧
    (memRead 0x008 s).getLsbD 16 = s.coll ∧ (memRead 0x008 s).extractLsb' 17 15 = 0

/-- R28: COLL is set by a dropped write; a write to STATUS with bit 16 = 1 clears it, with bit 16 = 0 leaves
it, changes nothing else and is never dropped; acceptance and completion do not change it; the reserved bits
of STATUS read 0. -/
def Obligations.CollisionFlagIsSticky : Prop :=
  (∀ (s : State) (off : Nat) (v : Word), s.busy = true →
    (regAt off).access = .wo ∨ (regAt off).access = .rw → (memWrite off v s).coll = true) ∧
  (∀ (s : State) (v : Word),
    memWrite 0x008 v s = { s with coll := if v.getLsbD 16 then false else s.coll }) ∧
  (∀ (s : State) (w : Word), s.busy = false → (memWrite 0x004 w s).coll = s.coll) ∧
  (∀ (i : Instr) (s t : State), exec i s = .next t → t.coll = s.coll) ∧
  (∀ s : State, (memRead 0x008 s).extractLsb' 2 2 = 0 ∧ (memRead 0x008 s).extractLsb' 12 4 = 0 ∧
    (memRead 0x008 s).extractLsb' 17 15 = 0) ∧
  State.reset.coll = false

/-- R49: while BUSY = 1 a write to CMD, an operand register, DIGEST or a buffer word is dropped and sets COLL,
changing nothing else; a write to STATUS is never dropped; a write to an RO or reserved offset is ignored,
busy or not, and sets no COLL; a read is performed while busy and returns the current content. -/
def Obligations.BusyDropsWrites : Prop :=
  (∀ (s : State) (off : Nat) (v : Word), s.busy = true → off % 4 = 0 → off ≤ 0x1FC →
    off = 0x004 ∨ (0x00C ≤ off ∧ off ≤ 0x044) ∨ (0x050 ≤ off ∧ off ≤ 0x060) ∨ 0x100 ≤ off →
    memWrite off v s = { s with coll := true }) ∧
  (∀ (s : State) (v : Word),
    memWrite 0x008 v s = { s with coll := if v.getLsbD 16 then false else s.coll }) ∧
  (∀ (s : State) (off : Nat) (v : Word), off % 4 = 0 →
    off = 0x000 ∨ off = 0x048 ∨ off = 0x04C ∨ (0x064 ≤ off ∧ off ≤ 0x0FC) → memWrite off v s = s) ∧
  (∀ (s : State) (off : Nat) (rest : List HostOp), s.busy = true → off % 4 = 0 → off ≤ 0x1FC →
    s.script = .access (.read (Config.base + off) 4) :: rest →
    hostTurn s = .next { s with script := rest, reads := s.reads ++ [memRead off s] })

/-- R47: word 0x100 + 4i of the KEY window holds KEY[4i..4i+3], bits 31:24 first; a write changes these four
bytes and nothing else; the window reads 0; the key is KEY[0..KEY_LEN-1]; no command writes KEY; bytes at and
beyond KEY_LEN are ignored by every command; at reset all bytes are 0. -/
def Obligations.KeyWindowHoldsTheKey : Prop :=
  (∀ (s : State) (i : Nat) (v : Word), Memory.wf s.mem = true → s.busy = false → i < 32 →
    memWrite (0x100 + 4 * i) v s = { s with mem := (memWrite (0x100 + 4 * i) v s).mem } ∧
    ∀ a, Memory.read (memWrite (0x100 + 4 * i) v s).mem a =
      if 0x100 + 4 * i ≤ a ∧ a < 0x100 + 4 * i + 4
      then v.extractLsb' (24 - 8 * (a - (0x100 + 4 * i))) 8 else Memory.read s.mem a) ∧
  (∀ (s : State) (i : Nat), i < 32 → memRead (0x100 + 4 * i) s = 0) ∧
  (∀ s : State, s.keyBytes.length = s.keyLen.toNat ∧
    ∀ n, n < s.keyLen.toNat → s.keyBytes.getD n 0 = Memory.read s.mem (0x100 + n)) ∧
  (∀ (i : Instr) (s t : State), exec i s = .next t →
    ∀ a, Memory.read t.mem a = Memory.read s.mem a) ∧
  (∀ (i : Instr) (s : State) (m : List Host.Cell),
    (∀ n, n < s.keyLen.toNat → Memory.read m (0x100 + n) = Memory.read s.mem (0x100 + n)) →
    (∀ n, Memory.read m (0x180 + n) = Memory.read s.mem (0x180 + n)) →
    commandOutcome i { s with mem := m } = commandOutcome i s) ∧
  ∀ n, n < 128 → Memory.read State.reset.mem (0x100 + n) = 0

/-- R48: the MSG window has the same packing and reads back; the message is MSG[0..MSG_LEN-1]; only HMAC reads
MSG, and only the bytes below MSG_LEN; no command writes it; at reset all bytes are 0. -/
def Obligations.MsgWindowHoldsTheMessage : Prop :=
  (∀ (s : State) (i : Nat) (v : Word), Memory.wf s.mem = true → s.busy = false → i < 32 →
    memWrite (0x180 + 4 * i) v s = { s with mem := (memWrite (0x180 + 4 * i) v s).mem } ∧
    memRead (0x180 + 4 * i) (memWrite (0x180 + 4 * i) v s) = v ∧
    ∀ a, Memory.read (memWrite (0x180 + 4 * i) v s).mem a =
      if 0x180 + 4 * i ≤ a ∧ a < 0x180 + 4 * i + 4
      then v.extractLsb' (24 - 8 * (a - (0x180 + 4 * i))) 8 else Memory.read s.mem a) ∧
  (∀ s : State, s.msgBytes.length = s.msgLen.toNat ∧
    ∀ n, n < s.msgLen.toNat → s.msgBytes.getD n 0 = Memory.read s.mem (0x180 + n)) ∧
  (∀ (i : Instr) (s t : State), exec i s = .next t →
    ∀ a, Memory.read t.mem a = Memory.read s.mem a) ∧
  (∀ (i : Instr) (s : State) (m : List Host.Cell),
    (∀ n, n < 128 → Memory.read m (0x100 + n) = Memory.read s.mem (0x100 + n)) →
    (i = .hmac → ∀ n, n < s.msgLen.toNat → Memory.read m (0x180 + n) = Memory.read s.mem (0x180 + n)) →
    commandOutcome i { s with mem := m } = commandOutcome i s) ∧
  ∀ n, n < 128 → Memory.read State.reset.mem (0x180 + n) = 0

/-- The secret cannot be read back (R47, R75, R219): what a host reads at any offset does not depend on the
KEY bytes. -/
def Obligations.KeyBytesNeverReadBack : Prop :=
  ∀ (s : State) (m : List Host.Cell) (off : Nat),
    (∀ a, 0x180 ≤ a → Memory.read m a = Memory.read s.mem a) →
    memRead off { s with mem := m } = memRead off s

/-! ### Acceptance, completion, errors -/

/-- R86: a write to CMD is dropped with COLL set while BUSY = 1; else it is accepted, and the next access
already sees BUSY = 1. -/
def Obligations.CmdWriteIsAccepted : Prop :=
  ∀ (s : State) (w : Word),
    (s.busy = true → memWrite 0x004 w s = { s with coll := true }) ∧
    (s.busy = false →
      memWrite 0x004 w s =
        { s with
          done := false, err := 0, lastOp := w.extractLsb' 0 4, phase := .running (decode w),
          iter := if decode w = .verify then some .checkKey else none } ∧
      (memRead 0x008 (memWrite 0x004 w s)).getLsbD 0 = true ∧
      (memRead 0x008 (memWrite 0x004 w s)).getLsbD 1 = false)

/-- A step runs the decoded command: the engine's turn completes the running command by `exec` (R87); a host
write to CMD on an idle block puts the engine in RUNNING(decode w) (R86). R88 leaves the time of the completion
free: that it is the next step when the schedule is empty is the model's choice (log 1). A command word placed by
`withFetchWord` is completed by the very next step (log 3), and `decodeTableWord` reads the same word (log 15);
both are the model's own. -/
def Obligations.StepRunsTheDecodedCommand : Prop :=
  (∀ (s : State) (i : Instr) (ts : List Turn), s.turns = .complete :: ts → s.resetIn = false →
    s.phase = .running i → step s = exec i { s with turns := ts }) ∧
  (∀ (s : State) (i : Instr), s.turns = [] → s.resetIn = false → s.phase = .running i →
    step s = exec i s) ∧
  (∀ (s : State) (w : Word) (ts : List Turn) (rest : List HostOp), s.turns = .host :: ts →
    s.resetIn = false → s.phase = .idle →
    s.script = .access (.write (Config.base + 0x004) 4 w) :: rest →
    step s = .next
      { s with
        turns := ts, script := rest, done := false, err := 0, lastOp := w.extractLsb' 0 4,
        phase := .running (decode w),
        iter := if decode w = .verify then some .checkKey else none }) ∧
  (∀ (s : State) (w : Nat), w < 2 ^ 32 →
    decodeTableWord 32 w = some (decode (BitVec.ofNat 32 w)) ∧
    step (s.withFetchWord 32 w) =
      exec (decode (BitVec.ofNat 32 w))
        { s with
          resetIn := false, done := false, err := 0, lastOp := (BitVec.ofNat 32 w).extractLsb' 0 4,
          phase := .running (decode (BitVec.ofNat 32 w)),
          iter := if decode (BitVec.ofNat 32 w) = .verify then some .checkKey else none })

/-- R87: completion is one atomic step: the outcome's writes with ERR = 0, or ERR = e and no other register;
BUSY <- 0, DONE <- 1, phase IDLE; COLL and LAST_OP as before; exec(ILLEGAL) = Error(ILLEGAL_CMD). -/
def Obligations.CompletionWritesOutcome : Prop :=
  (∀ (i : Instr) (s : State) (w : Writes), commandOutcome i s = .complete w →
    exec i s = .next { s.perform w with done := true, err := 0, phase := .idle, iter := none }) ∧
  (∀ (i : Instr) (s : State) (e : ErrCode), commandOutcome i s = .error e →
    exec i s = .next { s with done := true, err := e.code, phase := .idle, iter := none }) ∧
  (∀ (i : Instr) (s t : State), exec i s = .next t →
    t.busy = false ∧ t.coll = s.coll ∧ t.lastOp = s.lastOp) ∧
  ∀ s : State, commandOutcome .illegal s = .error .illegalCmd

/-- R214: errors are precise: after a command that ends with an error code the register file is the one before
it, with only STATUS changed: ERR is the code of the error, DONE = 1 and BUSY = 0. R216: and the error does not
block the engine: the next command word is accepted, and acceptance clears DONE and ERR. -/
def Obligations.ErrorsArePrecise : Prop :=
  ∀ (i : Instr) (s t : State), exec i s = .next t → t.err ≠ 0 →
    t = { s with done := true, err := t.err, phase := .idle, iter := none } ∧ t.busy = false ∧
    (∃ e, commandOutcome i s = .error e ∧ t.err = e.code) ∧
    ∀ w : Word, (memWrite 0x004 w t).phase = .running (decode w) ∧
      (memWrite 0x004 w t).done = false ∧ (memWrite 0x004 w t).err = 0

/-- R210, R213: the outcome code of each command, in the order of its checks. -/
def Obligations.ErrorCodesByPriority : Prop :=
  ∀ s t : State,
    (exec .hmac s = .next t → t.err = if 128 < s.keyLen.toNat ∨ 128 < s.msgLen.toNat then 5 else 0) ∧
    (exec .trunc s = .next t →
      t.err = if s.digits = 6 ∨ s.digits = 7 ∨ s.digits = 8 then 0 else 1) ∧
    (exec .hotp s = .next t →
      t.err = if 128 < s.keyLen.toNat then 5
        else if s.digits = 6 ∨ s.digits = 7 ∨ s.digits = 8 then 0 else 1) ∧
    (exec .cinc s = .next t → t.err = 0) ∧
    (exec .totpc s = .next t →
      t.err = if s.period = 0 then 4
        else if s.now.toNat < s.t0.toNat then 3
        else if (s.now.toNat - s.t0.toNat) / s.period.toNat < s.drift.toNat then 3 else 0) ∧
    (exec .verify s = .next t →
      (128 < s.keyLen.toNat → t.err = 5) ∧
      (s.keyLen.toNat ≤ 128 → s.submitted.toNat < 100000 ∨ 99999999 < s.submitted.toNat → t.err = 1) ∧
      (s.keyLen.toNat ≤ 128 → 100000 ≤ s.submitted.toNat → s.submitted.toNat ≤ 99999999 →
        (t.err = 0 ∨ t.err = 2) ∧
        (t.err = 0 ↔ ∃ k, k < s.threshold.toNat ∧
          hotpCode s.keyBytes (s.counter + BitVec.ofNat 64 k) (ndigits s.submitted.toNat)
            = s.submitted.toNat))) ∧
    (exec .illegal s = .next t → t.err = 6)

/-- R253, R81: a command writes only its own result set, and no operand register, no buffer byte, neither
COLL nor LAST_OP; every byte of memory reads as before. -/
def Obligations.CommandsWriteOnlyTheirResults : Prop :=
  ∀ (i : Instr) (s t : State), exec i s = .next t →
    (∀ a, Memory.read t.mem a = Memory.read s.mem a) ∧
    t.digits = s.digits ∧ t.threshold = s.threshold ∧ t.keyLen = s.keyLen ∧ t.msgLen = s.msgLen ∧
    t.submitted = s.submitted ∧ t.period = s.period ∧ t.t0 = s.t0 ∧ t.drift = s.drift ∧ t.now = s.now ∧
    t.coll = s.coll ∧ t.lastOp = s.lastOp ∧ t.resetIn = s.resetIn ∧
    t.script = s.script ∧ t.turns = s.turns ∧ t.reads = s.reads ∧
    (i ≠ .hmac → i ≠ .hotp → t.digest = s.digest) ∧
    (i ≠ .trunc → i ≠ .hotp → t.offset = s.offset ∧ t.snum = s.snum ∧ t.code = s.code) ∧
    (i ≠ .cinc → i ≠ .totpc → t.counter = s.counter) ∧
    (i ≠ .verify → t.vsteps = s.vsteps ∧ t.vctr = s.vctr) ∧
    (t.err ≠ 0 → t.digest = s.digest ∧ t.offset = s.offset ∧ t.snum = s.snum ∧ t.code = s.code ∧
      t.counter = s.counter ∧ t.vsteps = s.vsteps ∧ t.vctr = s.vctr)

/-- R81, the column "reads": a command's outcome depends on its operands alone. -/
def Obligations.OutcomesDependOnlyOnOperands : Prop :=
  ∀ (i : Instr) (s s' : State), sameOperands i s s' → commandOutcome i s = commandOutcome i s'

/-! ### The commands -/

/-- R110: HMAC, its key KEY[0..KEY_LEN-1] and its message MSG[0..MSG_LEN-1]; R109: the MAC is the outer hash, of
K0 XOR 0x5C, over the inner hash, of K0 XOR 0x36 and the message; it is 20 bytes, its inner input is at most 4
padded blocks for a message of at most 128 bytes, its outer input 84 bytes, 2 padded blocks. -/
def Obligations.HmacComputesMac : Prop :=
  decode 0x00000001 = .hmac ∧
  (∀ s : State, s.keyLen.toNat ≤ 128 → s.msgLen.toNat ≤ 128 →
    exec .hmac s = .next
      { s with
        digest := hmacSha1 s.keyBytes s.msgBytes
        done := true, err := 0, phase := .idle, iter := none }) ∧
  (∀ s : State, 128 < s.keyLen.toNat ∨ 128 < s.msgLen.toNat →
    exec .hmac s = .next { s with done := true, err := 5, phase := .idle, iter := none }) ∧
  ∀ key msg inner outer : List Byte,
    inner = (hmacKey key).map (fun b => b ^^^ 0x36) ++ msg →
    outer = (hmacKey key).map (fun b => b ^^^ 0x5C) ++ (sha1 inner).bytes →
    hmacSha1 key msg = sha1 outer ∧ (hmacSha1 key msg).bytes.length = 20 ∧
    (msg.length ≤ 128 → inner.length ≤ 192 ∧ shaBlockCount inner.length ≤ 4) ∧
    outer.length = 84 ∧ shaBlockCount outer.length = 2

/-- R135 with R131: TRUNC, on integers: offset = HS[19] mod 16, snum = the four bytes at the offset, the first
most significant, mod 2^31, code = snum mod 10^d. -/
def Obligations.TruncExtractsCode : Prop :=
  decode 0x00000002 = .trunc ∧
  (∀ (s : State) (d o snum : Nat), s.digits.toNat = d → d = 6 ∨ d = 7 ∨ d = 8 →
    o = (s.digest.bytes.getD 19 0).toNat % 16 →
    snum = ((((s.digest.bytes.getD o 0).toNat * 256 + (s.digest.bytes.getD (o + 1) 0).toNat) * 256 +
      (s.digest.bytes.getD (o + 2) 0).toNat) * 256 + (s.digest.bytes.getD (o + 3) 0).toNat) % 2 ^ 31 →
    exec .trunc s = .next
      { s with
        offset := BitVec.ofNat 4 o, snum := BitVec.ofNat 31 snum, code := BitVec.ofNat 27 (snum % 10 ^ d)
        done := true, err := 0, phase := .idle, iter := none }) ∧
  (∀ s : State, s.digits.toNat ≠ 6 → s.digits.toNat ≠ 7 → s.digits.toNat ≠ 8 →
    exec .trunc s = .next { s with done := true, err := 1, phase := .idle, iter := none })

/-- R137: HOTP, with LENGTH_RANGE checked before INVALID_DIGIT_COUNT; its message is the 8 bytes of COUNTER, byte 0
its bits 63:56 (R62). R136: `hotp(K, c, d)` is the code of `trunc(HMAC_SHA1(K, be_8(c)), d)`, and it is what HOTP
leaves in CODE: the function VERIFY compares with. -/
def Obligations.HotpComputesCode : Prop :=
  decode 0x00000003 = .hotp ∧
  (∀ (s : State) (d o snum : Nat) (msg : List Byte) (hs : Digest), s.keyLen.toNat ≤ 128 →
    s.digits.toNat = d → d = 6 ∨ d = 7 ∨ d = 8 →
    msg.length = 8 → (∀ i, i < 8 → msg.getD i 0 = s.counter.extractLsb' (56 - 8 * i) 8) →
    hs = hmacSha1 s.keyBytes msg →
    o = (hs.bytes.getD 19 0).toNat % 16 →
    snum = ((((hs.bytes.getD o 0).toNat * 256 + (hs.bytes.getD (o + 1) 0).toNat) * 256 +
      (hs.bytes.getD (o + 2) 0).toNat) * 256 + (hs.bytes.getD (o + 3) 0).toNat) % 2 ^ 31 →
    exec .hotp s = .next
      { s with
        digest := hs
        offset := BitVec.ofNat 4 o, snum := BitVec.ofNat 31 snum, code := BitVec.ofNat 27 (snum % 10 ^ d)
        done := true, err := 0, phase := .idle, iter := none }) ∧
  (∀ (key msg : List Byte) (c : Dword) (d : Nat), msg.length = 8 →
    (∀ i, i < 8 → msg.getD i 0 = c.extractLsb' (56 - 8 * i) 8) →
    hotpCode key c d = (truncate (hmacSha1 key msg).bytes d).code) ∧
  (∀ s t : State, exec .hotp s = .next t → t.err = 0 →
    t.code.toNat = hotpCode s.keyBytes s.counter s.digits.toNat) ∧
  (∀ s : State, 128 < s.keyLen.toNat →
    exec .hotp s = .next { s with done := true, err := 5, phase := .idle, iter := none }) ∧
  (∀ s : State, s.keyLen.toNat ≤ 128 → s.digits.toNat ≠ 6 → s.digits.toNat ≠ 7 → s.digits.toNat ≠ 8 →
    exec .hotp s = .next { s with done := true, err := 1, phase := .idle, iter := none })

/-- R150: CINC, modulo 2^64, always successful. -/
def Obligations.CincIncrementsModulo : Prop :=
  decode 0x00000004 = .cinc ∧
  ∀ s : State, exec .cinc s = .next
    { s with
      counter := BitVec.ofNat 64 ((s.counter.toNat + 1) % 2 ^ 64)
      done := true, err := 0, phase := .idle, iter := none }

/-- R161: TOTPC, its errors in the order of their checks, and its result. -/
def Obligations.TotpcDerivesCounter : Prop :=
  decode 0x00000005 = .totpc ∧
  (∀ s : State, s.period = 0 →
    exec .totpc s = .next { s with done := true, err := 4, phase := .idle, iter := none }) ∧
  (∀ s : State, s.period ≠ 0 → s.now.toNat < s.t0.toNat →
    exec .totpc s = .next { s with done := true, err := 3, phase := .idle, iter := none }) ∧
  (∀ (s : State) (q : Nat), s.period ≠ 0 → s.t0.toNat ≤ s.now.toNat →
    q = (s.now.toNat - s.t0.toNat) / s.period.toNat →
    (q < s.drift.toNat →
      exec .totpc s = .next { s with done := true, err := 3, phase := .idle, iter := none }) ∧
    (s.drift.toNat ≤ q →
      exec .totpc s = .next
        { s with
          counter := BitVec.ofNat 64 (q - s.drift.toNat)
          done := true, err := 0, phase := .idle, iter := none } ∧
      q - s.drift.toNat < 2 ^ 64))

/-- R182: VERIFY. LENGTH_RANGE is checked first, then the range of SUBMITTED; then it succeeds at the first
matching counter `COUNTER +_64 k` of its THRESHOLD counters (R183), with VSTEPS = k and VCTR that counter, and
ends in INVALID_THRESHOLD when none matches, THRESHOLD = 0 included. -/
def Obligations.VerifySearchesForward : Prop :=
  decode 0x00000006 = .verify ∧
  (∀ s : State, 128 < s.keyLen.toNat →
    exec .verify s = .next { s with done := true, err := 5, phase := .idle, iter := none }) ∧
  (∀ s : State, s.keyLen.toNat ≤ 128 → s.submitted.toNat < 100000 ∨ 99999999 < s.submitted.toNat →
    exec .verify s = .next { s with done := true, err := 1, phase := .idle, iter := none }) ∧
  ∀ (s : State) (d : Nat), s.keyLen.toNat ≤ 128 → 100000 ≤ s.submitted.toNat → s.submitted.toNat ≤ 99999999 →
    d = ndigits s.submitted.toNat →
    (∀ k, k < s.threshold.toNat →
      hotpCode s.keyBytes (s.counter + BitVec.ofNat 64 k) d = s.submitted.toNat →
      (∀ j, j < k → hotpCode s.keyBytes (s.counter + BitVec.ofNat 64 j) d ≠ s.submitted.toNat) →
      exec .verify s = .next
        { s with
          vsteps := BitVec.ofNat 16 k, vctr := s.counter + BitVec.ofNat 64 k
          done := true, err := 0, phase := .idle, iter := none }) ∧
    ((∀ k, k < s.threshold.toNat →
      hotpCode s.keyBytes (s.counter + BitVec.ofNat 64 k) d ≠ s.submitted.toNat) →
      exec .verify s = .next { s with done := true, err := 2, phase := .idle, iter := none })

/-- R83: an illegal word is accepted with its OP in LAST_OP, and completes with ILLEGAL_CMD and no result. -/
def Obligations.IllegalWordCompletesWithCode : Prop :=
  (∀ w : Word, w.extractLsb' 4 28 ≠ 0 ∨ w.extractLsb' 0 4 = 0 ∨ 7 ≤ (w.extractLsb' 0 4).toNat →
    decode w = .illegal ∧
    ∀ s : State, s.busy = false →
      (memWrite 0x004 w s).phase = .running .illegal ∧
      (memWrite 0x004 w s).lastOp = w.extractLsb' 0 4) ∧
  ∀ s : State, exec .illegal s = .next { s with done := true, err := 6, phase := .idle, iter := none }

/-! ### SHA-1 and HMAC -/

/-- R102: the padded message is M, 0x80, `(55 - L) mod 64` zero bytes and `be_8(8L)`, the 8 bytes of 8L with the
most significant first; its length is a multiple of
64, and it is cut into its 64-byte blocks. -/
def Obligations.ShaPaddingFillsBlocks : Prop :=
  ∀ m : List Byte, ∃ (z : Nat) (bits : List Byte), z < 64 ∧ ((z : Int) = (55 - (m.length : Int)) % 64) ∧
    shaPad m = m ++ [0x80] ++ List.replicate z 0 ++ bits ∧
    bits.length = 8 ∧ (∀ i, i < 8 → (bits.getD i 0).toNat = 8 * m.length / 2 ^ (56 - 8 * i) % 256) ∧
    (shaPad m).length = 64 * shaBlockCount m.length ∧
    (shaBlocks (shaBlockCount m.length) (shaPad m)).length = shaBlockCount m.length ∧
    ∀ j, j < shaBlockCount m.length →
      (shaBlocks (shaBlockCount m.length) (shaPad m)).getD j [] = ((shaPad m).drop (64 * j)).take 64

/-- R105: the message schedule: W[t] is the four bytes of the block at 4t, the first most significant, and then
its own recurrence, whose ROTL_1 moves bit i to bit i + 1 and bit 31 to bit 0 (R101). -/
def Obligations.ShaScheduleRecurrence : Prop :=
  ∀ b : List Byte, b.length = 64 →
    (shaSchedule b).length = 80 ∧
    (∀ t, t < 16 → ((shaSchedule b).getD t 0).toNat =
      (((b.getD (4 * t) 0).toNat * 256 + (b.getD (4 * t + 1) 0).toNat) * 256 +
        (b.getD (4 * t + 2) 0).toNat) * 256 + (b.getD (4 * t + 3) 0).toNat) ∧
    (∀ (t : Nat) (x : Word), 16 ≤ t → t < 80 →
      x = (shaSchedule b).getD (t - 3) 0 ^^^ (shaSchedule b).getD (t - 8) 0 ^^^
        (shaSchedule b).getD (t - 14) 0 ^^^ (shaSchedule b).getD (t - 16) 0 →
      (shaSchedule b).getD t 0 = rotl 1 x ∧
      ∀ i, i < 32 → ((shaSchedule b).getD t 0).getLsbD i = x.getLsbD ((i + 31) % 32))

/-- R103, R104, R106: the initial hash value, the round functions and constants, the 80 rounds of a block by
round number with the block's schedule, the word-by-word sum, and the blocks in order, from the first. The
rotation is R101's: ROTL_n moves bit i to bit i + n modulo 32. -/
def Obligations.ShaCompressionRounds : Prop :=
  (∀ (n : Nat) (x : Word), n < 32 →
    rotl n x = (x <<< n) ||| (x >>> (32 - n)) ∧
    ∀ i, i < 32 → (rotl n x).getLsbD i = x.getLsbD ((i + 32 - n) % 32)) ∧
  shaInit = ⟨0x67452301, 0xEFCDAB89, 0x98BADCFE, 0x10325476, 0xC3D2E1F0⟩ ∧
  (∀ (t : Nat) (b c d : Word),
    (t ≤ 19 → shaF t b c d = (b &&& c) ^^^ (~~~b &&& d) ∧ shaK t = 0x5A827999) ∧
    (20 ≤ t → t ≤ 39 → shaF t b c d = b ^^^ c ^^^ d ∧ shaK t = 0x6ED9EBA1) ∧
    (40 ≤ t → t ≤ 59 → shaF t b c d = (b &&& c) ^^^ (b &&& d) ^^^ (c &&& d) ∧ shaK t = 0x8F1BBCDC) ∧
    (60 ≤ t → t ≤ 79 → shaF t b c d = b ^^^ c ^^^ d ∧ shaK t = 0xCA62C1D6)) ∧
  (∀ (h v : Digest) (block : List Byte),
    v = (List.range 80).foldl (fun v t =>
      ⟨rotl 5 v.w0 + shaF t v.w1 v.w2 v.w3 + v.w4 + shaK t + (shaSchedule block).getD t 0,
        v.w0, rotl 30 v.w1, v.w2, v.w3⟩) h →
    shaCompress h block = ⟨h.w0 + v.w0, h.w1 + v.w1, h.w2 + v.w2, h.w3 + v.w3, h.w4 + v.w4⟩) ∧
  ∀ m : List Byte, (sha1 m).bytes.length = 20 ∧
    sha1 m = (List.range (shaBlockCount m.length)).foldl
      (fun h j => shaCompress h (((shaPad m).drop (64 * j)).take 64)) shaInit

/-- R39, R63: the bytes of a digest: HS[4i+j] is bits 31-8j : 24-8j of DIGESTi, 20 bytes in all. -/
def Obligations.DigestBytesBigEndian : Prop :=
  ∀ d : Digest,
    d.bytes.length = 20 ∧
    ∀ j, j < 4 →
      d.bytes.getD j 0 = d.w0.extractLsb' (24 - 8 * j) 8 ∧
      d.bytes.getD (4 + j) 0 = d.w1.extractLsb' (24 - 8 * j) 8 ∧
      d.bytes.getD (8 + j) 0 = d.w2.extractLsb' (24 - 8 * j) 8 ∧
      d.bytes.getD (12 + j) 0 = d.w3.extractLsb' (24 - 8 * j) 8 ∧
      d.bytes.getD (16 + j) 0 = d.w4.extractLsb' (24 - 8 * j) 8

/-- R108: K0 is exactly 64 bytes; a key of at most 64 bytes is used as it is, padded with zero bytes; a longer
key is hashed first. -/
def Obligations.HmacKeyPreparation : Prop :=
  ∀ key : List Byte,
    (hmacKey key).length = 64 ∧
    (key.length ≤ 64 → hmacKey key = key ++ List.replicate (64 - key.length) 0) ∧
    (64 < key.length → hmacKey key = (sha1 key).bytes ++ List.replicate 44 0)

/-- R249: the SHA-1 compressions of one HMAC of an 8-byte message. -/
def Obligations.HmacCompressionCounts : Prop :=
  ∀ n, n ≤ 128 →
    (n ≤ 64 → hmacCompressions n 8 = 4) ∧
    (65 ≤ n → n ≤ 119 → hmacCompressions n 8 = 4 + 2) ∧
    (120 ≤ n → hmacCompressions n 8 = 4 + 3)

/-! ### Truncation, HOTP, TOTP, VERIFY -/

/-- R134: what follows from R131: the offset is HS[19] mod 16; P is the four bytes at the offset, the first most
significant, which lie in the digest and never include HS[19]; snum is P mod 2^31; the code is below 10^d, depends
only on the selected bytes, and for 6 ≤ d' ≤ d the code for d' is the code for d mod 10^d'. -/
def Obligations.TruncationFacts : Prop :=
  ∀ (x y : Digest) (d d' : Nat), 6 ≤ d' → d' ≤ d →
    (truncate x.bytes d).offset.toNat + 3 ≤ 18 ∧
    (∀ o, o = (truncate x.bytes d).offset.toNat → (truncate x.bytes d).p.toNat =
      (((x.bytes.getD o 0).toNat * 256 + (x.bytes.getD (o + 1) 0).toNat) * 256 +
        (x.bytes.getD (o + 2) 0).toNat) * 256 + (x.bytes.getD (o + 3) 0).toNat) ∧
    (truncate x.bytes d).offset.toNat = (x.bytes.getD 19 0).toNat % 16 ∧
    (truncate x.bytes d).snum.toNat = (truncate x.bytes d).p.toNat % 2 ^ 31 ∧
    (truncate x.bytes d).snum.toNat ≤ 2147483647 ∧
    (truncate x.bytes d).code < 10 ^ d ∧
    (truncate x.bytes d).code = (truncate x.bytes d).snum.toNat % 10 ^ d ∧
    (truncate x.bytes d').code = (truncate x.bytes d).code % 10 ^ d' ∧
    ((truncate x.bytes d).code < 10 ^ d' → (truncate x.bytes d').code = (truncate x.bytes d).code) ∧
    (∀ o, o = (x.bytes.getD 19 0).toNat % 16 → o = (y.bytes.getD 19 0).toNat % 16 →
      (∀ j, j < 4 → x.bytes.getD (o + j) 0 = y.bytes.getD (o + j) 0) →
      (truncate x.bytes d).code = (truncate y.bytes d).code)

/-- R137, a corner case: "The result is the same as HMAC on the message `be_8(COUNTER)` followed by TRUNC." -/
def Obligations.HotpIsHmacThenTrunc : Prop :=
  ∀ s h t : State, s.keyLen.toNat ≤ 128 → s.digitsLegal = true → s.msgLen = 8 →
    (∀ i, i < 8 → Memory.read s.mem (0x180 + i) = s.counter.extractLsb' (56 - 8 * i) 8) →
    exec .hmac s = .next h → exec .trunc h = .next t → exec .hotp s = .next t

/-- R11: `ndigits(v)` is the least d with `v < 10^d`, for v ≥ 1; R186: it is 6, 7 or 8 in the three ranges. -/
def Obligations.DigitCountIsLeastPower : Prop :=
  (∀ v, 1 ≤ v → v < 10 ^ ndigits v ∧ ∀ d, v < 10 ^ d → ndigits v ≤ d) ∧
  (∀ v, 100000 ≤ v → v ≤ 999999 → ndigits v = 6) ∧
  (∀ v, 1000000 ≤ v → v ≤ 9999999 → ndigits v = 7) ∧
  (∀ v, 10000000 ≤ v → v ≤ 99999999 → ndigits v = 8)

/-- R162: TOTPC rejects exactly when `now < t0 + drift·period` in unbounded integers; for NOW ≥ T0 the floor
test is `NOW - T0 < DRIFT·PERIOD`. -/
def Obligations.TotpcRejectsExactlyUnderflow : Prop :=
  ∀ s t : State, s.period ≠ 0 → exec .totpc s = .next t →
    (t.err = 3 ↔ s.now.toNat < s.t0.toNat + s.drift.toNat * s.period.toNat) ∧
    (s.t0.toNat ≤ s.now.toNat →
      ((s.now.toNat - s.t0.toNat) / s.period.toNat < s.drift.toNat ↔
        s.now.toNat - s.t0.toNat < s.drift.toNat * s.period.toNat))

/-- R164, for TOTPC followed by VERIFY with THRESHOLD = th: with T the server's step and c the counter TOTPC
derives, a step S is one of the th counters tried from c on exactly when -drift ≤ S - T ≤ th - 1 - drift; and
the bounds on the skew of a client ahead or behind. R164 tacitly takes th > drift for its two bounds "always
inside", and for a client behind its own time not before t0; both are premises here (log 16). -/
def Obligations.DriftWindowCoverage : Prop :=
  ∀ period t0 drift now th c T : Nat, totpCounter period t0 drift now = .ok c →
    T = (now - t0) / period →
    (∀ S : Nat, (∃ k, k < th ∧ S = c + k) ↔
      (-(drift : Int) ≤ (S : Int) - T ∧ (S : Int) - T ≤ (th : Int) - 1 - drift)) ∧
    (∀ skew, drift + 1 ≤ th → skew ≤ period * (th - drift - 1) →
      ∃ k, k < th ∧ (now + skew - t0) / period = c + k) ∧
    (∀ skew, period * (th - drift) ≤ skew → ¬ ∃ k, k < th ∧ (now + skew - t0) / period = c + k) ∧
    (∀ skew, drift + 1 ≤ th → t0 + skew ≤ now → skew ≤ period * drift →
      ∃ k, k < th ∧ (now - skew - t0) / period = c + k) ∧
    (∀ skew, t0 + skew ≤ now → period * (drift + 1) ≤ skew →
      ¬ ∃ k, k < th ∧ (now - skew - t0) / period = c + k)

/-- R181 refines to R182: from CHECK_KEY, THRESHOLD + 3 internal transitions reach a final state, and it
reports the outcome of R182's pseudocode on the same operands. -/
def Obligations.VerifyMachineReachesOutcome : Prop :=
  ∀ s : State, (s.verifySteps (s.threshold.toNat + 3) .checkKey).outcome = some s.verifyOutcome

/-- R181: the table of transitions, row by row; each arrow is one internal transition, which a work turn makes
(log 9) unless reset is asserted; and it is invisible to the host: only the hidden iteration state changes, and
every host read is as before. -/
def Obligations.VerifyTransitionTable : Prop :=
  (∀ s : State,
    (128 < s.keyLen.toNat → s.verifyStep .checkKey = .doneErr .lengthRange) ∧
    (s.keyLen.toNat ≤ 128 → s.verifyStep .checkKey = .checkRange) ∧
    (s.submitted.toNat < 100000 ∨ 99999999 < s.submitted.toNat →
      s.verifyStep .checkRange = .doneErr .invalidDigitCount) ∧
    (100000 ≤ s.submitted.toNat → s.submitted.toNat ≤ 99999999 →
      s.verifyStep .checkRange = .attempt s.counter s.threshold (ndigits s.submitted.toNat)) ∧
    ∀ (ctr : Dword) (rem : BitVec 16) (d : Nat),
      (rem = 0 → s.verifyStep (.attempt ctr rem d) = .doneErr .invalidThreshold) ∧
      (rem ≠ 0 → hotpCode s.keyBytes ctr d = s.submitted.toNat →
        s.verifyStep (.attempt ctr rem d) = .doneOk (s.threshold - rem) ctr) ∧
      (rem ≠ 0 → hotpCode s.keyBytes ctr d ≠ s.submitted.toNat →
        s.verifyStep (.attempt ctr rem d) = .attempt (ctr + 1) (rem - 1) d)) ∧
  ∀ s t : State, s.nextTurn = .work → step s = .next t →
    t = { s with turns := s.turns.tail, iter := t.iter } ∧ t.observation = s.observation ∧
    t.iter = if s.resetIn then s.iter else s.iter.map s.verifyStep

/-- R188: a successful VERIFY computes exactly VSTEPS + 1 HMACs, one that ends in INVALID_THRESHOLD exactly
THRESHOLD, every other none; never more than THRESHOLD. -/
def Obligations.VerifyHmacWork : Prop :=
  ∀ s t : State, exec .verify s = .next t →
    (t.err = 0 → s.verifyHmacs = t.vsteps.toNat + 1) ∧
    (t.err = 2 → s.verifyHmacs = s.threshold.toNat) ∧
    (t.err = 1 ∨ t.err = 5 → s.verifyHmacs = 0) ∧
    s.verifyHmacs ≤ s.threshold.toNat

/-- R190: a code generated k < THRESHOLD steps ahead, of 6, 7 or 8 digits, verifies with k steps when it is at
least 100000 and no earlier counter of the window gives it under the inferred digit count. -/
def Obligations.VerifyAcceptsGeneratedCode : Prop :=
  ∀ (s : State) (k d : Nat), s.keyLen.toNat ≤ 128 → d = 6 ∨ d = 7 ∨ d = 8 → k < s.threshold.toNat →
    s.submitted.toNat = hotpCode s.keyBytes (s.counter + BitVec.ofNat 64 k) d →
    100000 ≤ s.submitted.toNat →
    (∀ j, j < k →
      hotpCode s.keyBytes (s.counter + BitVec.ofNat 64 j) (ndigits s.submitted.toNat)
        ≠ s.submitted.toNat) →
    exec .verify s = .next
      { s with
        vsteps := BitVec.ofNat 16 k, vctr := s.counter + BitVec.ofNat 64 k
        done := true, err := 0, phase := .idle, iter := none }

/-! ### Whole-machine rules -/

/-- R71, R88: while a command runs, no host access and no internal transition changes its outcome: after any
number of them the completion is the one it would have been at acceptance, and the command still runs. -/
def Obligations.OutcomeIsIndependentOfLatency : Prop :=
  ∀ (ts rest : List Turn) (s t : State) (i : Instr), s.resetIn = false → s.phase = .running i →
    s.turns = ts ++ rest → (∀ u ∈ ts, u = .host ∨ u = .work) →
    Host.Core.run core ts.length s = .next t →
    t.phase = .running i ∧ t.resetIn = false ∧ t.turns = rest ∧ commandOutcome i t = commandOutcome i s

/-- R88, fairness, as the model has it (log 1): a running command completes after finitely many host accesses:
once the schedule has only host and internal turns left, and they are performed, the next step is the
completion. -/
def Obligations.RunningCommandCompletes : Prop :=
  ∀ (s u : State) (i : Instr), s.resetIn = false → s.phase = .running i →
    (∀ t ∈ s.turns, t = .host ∨ t = .work) → Host.Core.run core s.turns.length s = .next u →
    ∃ t, Host.Core.run core (s.turns.length + 1) s = .next t ∧
      t.busy = false ∧ t.done = true ∧ exec i u = .next t

/-- R152: COUNTER is written only by CINC, by TOTPC and by host writes to COUNTER_HI and COUNTER_LO, and by
reset. -/
def Obligations.CounterWritersAreKnown : Prop :=
  ∀ s t : State, step s = .next t → t.counter ≠ s.counter →
    s.completesNext .cinc ∨ s.completesNext .totpc ∨
      s.hostStoresNext 0x020 ∨ s.hostStoresNext 0x024 ∨ s.resetsNext

/-- R30-R38, R47, R48: an operand register other than COUNTER changes only by host writes to it, NOW among them; the
buffers only by host writes to their windows, a byte of KEY or MSG only by a host write to the word that holds it;
and each of them by reset; no command writes them. Of one byte it is said under the canonical form of the
buffers' list (log 5), which every step keeps (StepKeepsRegisterInvariant). -/
def Obligations.HostOwnsTimeAndBuffers : Prop :=
  ∀ s t : State, step s = .next t →
    (t.digits ≠ s.digits → s.hostStoresNext 0x00C ∨ s.resetsNext) ∧
    (t.threshold ≠ s.threshold → s.hostStoresNext 0x010 ∨ s.resetsNext) ∧
    (t.keyLen ≠ s.keyLen → s.hostStoresNext 0x014 ∨ s.resetsNext) ∧
    (t.msgLen ≠ s.msgLen → s.hostStoresNext 0x018 ∨ s.resetsNext) ∧
    (t.submitted ≠ s.submitted → s.hostStoresNext 0x01C ∨ s.resetsNext) ∧
    (t.period ≠ s.period → s.hostStoresNext 0x028 ∨ s.hostStoresNext 0x02C ∨ s.resetsNext) ∧
    (t.t0 ≠ s.t0 → s.hostStoresNext 0x030 ∨ s.hostStoresNext 0x034 ∨ s.resetsNext) ∧
    (t.drift ≠ s.drift → s.hostStoresNext 0x038 ∨ s.hostStoresNext 0x03C ∨ s.resetsNext) ∧
    (t.now ≠ s.now → s.hostStoresNext 0x040 ∨ s.hostStoresNext 0x044 ∨ s.resetsNext) ∧
    (t.mem ≠ s.mem → (∃ off, 0x100 ≤ off ∧ off < 0x200 ∧ s.hostStoresNext off) ∨ s.resetsNext) ∧
    (Memory.wf s.mem = true → ∀ a, Memory.read t.mem a ≠ Memory.read s.mem a →
      (∃ off, off % 4 = 0 ∧ 0x100 ≤ off ∧ off < 0x200 ∧ off ≤ a ∧ a < off + 4 ∧ s.hostStoresNext off) ∨
        s.resetsNext)

/-- R39-R43, R45, R70: a result register changes only at the completion of a command that writes it, or by reset;
DIGEST also by a host write to one of its words; and what a host reads of each result register, at its own offset
(R20), is that register, zero-extended, VCTR by its halves. -/
def Obligations.ResultsChangeOnlyAtCompletion : Prop :=
  (∀ s : State,
    memRead 0x050 s = s.digest.w0 ∧ memRead 0x054 s = s.digest.w1 ∧ memRead 0x058 s = s.digest.w2 ∧
    memRead 0x05C s = s.digest.w3 ∧ memRead 0x060 s = s.digest.w4 ∧
    memRead 0x064 s = s.offset.setWidth 32 ∧ memRead 0x068 s = s.snum.setWidth 32 ∧
    memRead 0x06C s = s.code.setWidth 32 ∧ memRead 0x070 s = s.vsteps.setWidth 32 ∧
    memRead 0x078 s = s.vctr.extractLsb' 32 32 ∧ memRead 0x07C s = s.vctr.extractLsb' 0 32) ∧
  ∀ s t : State, step s = .next t →
    (t.offset ≠ s.offset ∨ t.snum ≠ s.snum ∨ t.code ≠ s.code →
      s.completesNext .trunc ∨ s.completesNext .hotp ∨ s.resetsNext) ∧
    (t.vsteps ≠ s.vsteps ∨ t.vctr ≠ s.vctr → s.completesNext .verify ∨ s.resetsNext) ∧
    (t.digest ≠ s.digest →
      s.completesNext .hmac ∨ s.completesNext .hotp ∨
        (∃ off, 0x050 ≤ off ∧ off ≤ 0x060 ∧ s.hostStoresNext off) ∨ s.resetsNext)

/-- R24-R28, R217: what changes each STATUS field. LAST_OP changes only at acceptance or by reset; DONE and ERR only
at acceptance, at completion or by reset; BUSY goes to 1 only at acceptance, and to 0 only at completion or by
reset; COLL goes to 1 only by a host write dropped because BUSY = 1 (R49), and to 0 only by a host write to STATUS
with bit 16 = 1 or by reset. -/
def Obligations.StatusChangesAtLifecycleSteps : Prop :=
  ∀ s t : State, step s = .next t →
    (t.lastOp ≠ s.lastOp → s.hostStoresNext 0x004 ∨ s.resetsNext) ∧
    (t.done ≠ s.done ∨ t.err ≠ s.err →
      s.hostStoresNext 0x004 ∨ (∃ i, s.completesNext i) ∨ s.resetsNext) ∧
    (s.busy = false → t.busy = true → s.hostStoresNext 0x004) ∧
    (s.busy = true → t.busy = false → (∃ i, s.completesNext i) ∨ s.resetsNext) ∧
    (s.coll = false → t.coll = true → s.busy = true ∧ ∃ off v, s.hostWritesNext off v ∧
      (off = 0x004 ∨ (0x00C ≤ off ∧ off ≤ 0x044) ∨ (0x050 ≤ off ∧ off ≤ 0x060) ∨
        (0x100 ≤ off ∧ off ≤ 0x1FC))) ∧
    (s.coll = true → t.coll = false →
      (∃ v, s.hostWritesNext 0x008 v ∧ v.getLsbD 16 = true) ∨ s.resetsNext)

/-- R90 with R47: the expansion of `ldkey B`, performed by the host on an idle block (logs 1, 2), loads B:
afterwards the key of the next command is B, the bytes past the end of B in its last word are 0, and every other
byte of KEY and MSG (R255) and every register but KEY_LEN are as before. -/
def Obligations.LoadKeyLoadsTheKey : Prop :=
  ∀ (s : State) (b : List Byte), b.length ≤ 128 → Memory.wf s.mem = true → s.busy = false →
    s.resetIn = false → s.turns = [] → s.script = Stmt.expand (.ldkey b) →
    ∃ t, Host.Core.run core s.script.length s = .next t ∧ t.keyBytes = b ∧ t.script = [] ∧
      (∀ n, n < b.length → Memory.read t.mem (0x100 + n) = b.getD n 0) ∧
      (∀ n, b.length ≤ n → n < 4 * ((b.length + 3) / 4) → Memory.read t.mem (0x100 + n) = 0) ∧
      (∀ a, a < 0x100 ∨ 0x100 + 4 * ((b.length + 3) / 4) ≤ a →
        Memory.read t.mem a = Memory.read s.mem a) ∧
      t = { s with script := [], mem := t.mem, keyLen := BitVec.ofNat 8 b.length }
end

