-- ==== Sys2Proof/Laws/Memory.lean ====
section
/-! SUPPORT. The laws of the buffers' memory: read after write, and the canonical form. -/
namespace Sys2Proof.Machine

@[simp] theorem Memory.read_nil (a : Nat) : Memory.read [] a = 0 := rfl

theorem Memory.read_cons (k a : Nat) (x : Byte) (m : List Host.Cell) :
    Memory.read ((k, x) :: m) a = if k = a then x else Memory.read m a := rfl

theorem Memory.write_cons (k a : Nat) (x v : Byte) (m : List Host.Cell) :
    Memory.write ((k, x) :: m) a v =
      if a < k then (if v = 0 then (k, x) :: m else (a, v) :: (k, x) :: m)
      else if a = k then (if v = 0 then m else (a, v) :: m)
      else (k, x) :: Memory.write m a v := rfl

theorem Memory.write_nil (a : Nat) (v : Byte) :
    Memory.write [] a v = if v = 0 then [] else [(a, v)] := rfl

theorem Memory.wfFrom_cons {lo k : Nat} {x : Byte} {m : List Host.Cell} :
    Memory.wfFrom lo ((k, x) :: m) = true ↔
      lo ≤ k ∧ k < windowEnd ∧ x ≠ 0 ∧ Memory.wfFrom (k + 1) m = true := by
  simp [Memory.wfFrom, bne_iff_ne]

/-- An offset below the first one a canonical list may hold reads as unlisted. -/
theorem Memory.read_below {lo a : Nat} {m : List Host.Cell} (h : Memory.wfFrom lo m = true) (ha : a < lo) :
    Memory.read m a = 0 := by
  induction m generalizing lo with
  | nil => rfl
  | cons c m ih =>
    obtain ⟨k, x⟩ := c
    obtain ⟨hk, -, -, hm⟩ := Memory.wfFrom_cons.mp h
    have : k ≠ a := by omega
    simp [Memory.read, this, ih hm (by omega)]

theorem Memory.wfFrom_mono {lo lo' : Nat} {m : List Host.Cell} (h : Memory.wfFrom lo m = true) (hl : lo' ≤ lo) :
    Memory.wfFrom lo' m = true := by
  cases m with
  | nil => rfl
  | cons c m =>
    obtain ⟨k, x⟩ := c
    obtain ⟨hk, hrest⟩ := Memory.wfFrom_cons.mp h
    exact Memory.wfFrom_cons.mpr ⟨by omega, hrest⟩

/-- Reading a byte after writing one, on a canonical list. -/
theorem Memory.read_write {lo a b : Nat} {v : Byte} {m : List Host.Cell} (h : Memory.wfFrom lo m = true) :
    Memory.read (Memory.write m a v) b = if b = a then v else Memory.read m b := by
  induction m generalizing lo with
  | nil =>
    rw [Memory.write_nil]
    split <;> split <;> simp_all [Memory.read_cons]
    intro hab
    exact absurd hab.symm (by assumption)
  | cons c m ih =>
    obtain ⟨k, x⟩ := c
    obtain ⟨hk, hke, hx, hm⟩ := Memory.wfFrom_cons.mp h
    have hlow : ∀ c, c < k → Memory.read ((k, x) :: m) c = 0 := fun c hc =>
      Memory.read_below (Memory.wfFrom_cons.mpr ⟨Nat.le_refl k, hke, hx, hm⟩) hc
    have hhigh : ∀ c, c ≤ k → Memory.read m c = 0 := fun c hc => Memory.read_below hm (by omega)
    rw [Memory.write_cons]
    by_cases hb : b = a
    · subst hb
      split
      · split
        · simp_all
        · simp [Memory.read_cons]
      · split
        · split
          · subst b
            simp_all
          · simp [Memory.read_cons]
        · have : k ≠ b := by omega
          rw [Memory.read_cons, if_neg this, ih hm, if_pos rfl, if_pos rfl]
    · rw [if_neg hb]
      split
      · split
        · rfl
        · rw [Memory.read_cons, if_neg (Ne.symm hb)]
      · split
        · subst a
          split
          · rw [Memory.read_cons, if_neg (Ne.symm hb)]
          · rw [Memory.read_cons, Memory.read_cons, if_neg (Ne.symm hb), if_neg (Ne.symm hb)]
        · rw [Memory.read_cons, Memory.read_cons, ih hm, if_neg hb]

theorem Memory.write_wfFrom {lo a : Nat} {v : Byte} {m : List Host.Cell} (h : Memory.wfFrom lo m = true)
    (hlo : lo ≤ a) (ha : a < windowEnd) : Memory.wfFrom lo (Memory.write m a v) = true := by
  induction m generalizing lo with
  | nil =>
    rw [Memory.write_nil]
    split
    · rfl
    · exact Memory.wfFrom_cons.mpr ⟨hlo, ha, by assumption, rfl⟩
  | cons c m ih =>
    obtain ⟨k, x⟩ := c
    obtain ⟨hk, hke, hx, hm⟩ := Memory.wfFrom_cons.mp h
    rw [Memory.write_cons]
    split
    · split
      · exact h
      · exact Memory.wfFrom_cons.mpr
          ⟨hlo, ha, by assumption, Memory.wfFrom_cons.mpr ⟨by omega, hke, hx, hm⟩⟩
    · split
      · subst a
        split
        · exact Memory.wfFrom_mono hm (by omega)
        · exact Memory.wfFrom_cons.mpr ⟨hk, hke, by assumption, hm⟩
      · exact Memory.wfFrom_cons.mpr ⟨hk, hke, hx, ih hm (by omega)⟩

/-- A byte write into the buffers keeps the canonical form. -/
theorem Memory.write_wf {m : List Host.Cell} {a : Nat} {v : Byte} (h : Memory.wf m = true)
    (hlo : keyBase ≤ a) (ha : a < windowEnd) : Memory.wf (Memory.write m a v) = true :=
  Memory.write_wfFrom h hlo ha

/-- A word write into the buffers keeps the canonical form. -/
theorem Memory.writeWord_wf {m : List Host.Cell} {a : Nat} {v : Word} (h : Memory.wf m = true)
    (hlo : keyBase ≤ a) (ha : a + 4 ≤ windowEnd) : Memory.wf (Memory.writeWord m a v) = true := by
  unfold Memory.writeWord
  exact Memory.write_wf (Memory.write_wf (Memory.write_wf (Memory.write_wf h hlo (by omega))
    (by omega) (by omega)) (by omega) (by omega)) (by omega) (by omega)

/-- Reading a byte after a word write: the word's own byte inside its four offsets, else as before. -/
theorem Memory.read_writeWord {m : List Host.Cell} {a b : Nat} {v : Word} (h : Memory.wf m = true)
    (hlo : keyBase ≤ a) (ha : a + 4 ≤ windowEnd) :
    Memory.read (Memory.writeWord m a v) b =
      if a ≤ b ∧ b < a + 4 then byteOfWord v (b - a) else Memory.read m b := by
  have h0 := Memory.write_wf (v := byteOfWord v 0) h hlo (by omega : a < windowEnd)
  have h1 := Memory.write_wf (v := byteOfWord v 1) h0 (by omega : keyBase ≤ a + 1) (by omega)
  have h2 := Memory.write_wf (v := byteOfWord v 2) h1 (by omega : keyBase ≤ a + 2) (by omega)
  unfold Memory.writeWord
  rw [Memory.read_write h2, Memory.read_write h1, Memory.read_write h0, Memory.read_write h]
  by_cases hin : a ≤ b ∧ b < a + 4
  · have : b = a ∨ b = a + 1 ∨ b = a + 2 ∨ b = a + 3 := by omega
    rcases this with rfl | rfl | rfl | rfl <;> simp
  · have h3 : b ≠ a + 3 := by omega
    have h2 : b ≠ a + 2 := by omega
    have h1 : b ≠ a + 1 := by omega
    have h0 : b ≠ a := by omega
    simp [hin, h0, h1, h2, h3]

/-- The four bytes of a word, put together again. -/
theorem byteOfWord_append (v : Word) :
    byteOfWord v 0 ++ byteOfWord v 1 ++ byteOfWord v 2 ++ byteOfWord v 3 = v := by
  apply BitVec.eq_of_getLsbD_eq
  intro i hi
  simp only [byteOfWord, BitVec.getLsbD_append, BitVec.getLsbD_extractLsb']
  by_cases h1 : i < 8
  · simp [h1]
  · by_cases h2 : i < 16
    · have : i - 8 < 8 := by omega
      have e : 8 + (i - 8) = i := by omega
      simp [h1, this, e]
    · by_cases h3 : i < 24
      · have a1 : ¬ i - 8 < 8 := by omega
        have a2 : i - 8 - 8 < 8 := by omega
        have e : 16 + (i - 8 - 8) = i := by omega
        simp [h1, a1, a2, e]
      · have a1 : ¬ i - 8 < 8 := by omega
        have a2 : ¬ i - 8 - 8 < 8 := by omega
        have a3 : i - 8 - 8 - 8 < 8 := by omega
        have e : 24 + (i - 8 - 8 - 8) = i := by omega
        simp [h1, a1, a2, a3, e]

/-- Reading back the word just written. -/
theorem Memory.readWord_writeWord_same {m : List Host.Cell} {a : Nat} {v : Word} (h : Memory.wf m = true)
    (hlo : keyBase ≤ a) (ha : a + 4 ≤ windowEnd) : Memory.readWord (Memory.writeWord m a v) a = v := by
  unfold Memory.readWord
  simp only [Memory.read_writeWord h hlo ha]
  simpa using byteOfWord_append v

/-- Reading another word than the one written. -/
theorem Memory.readWord_writeWord_other {m : List Host.Cell} {a b : Nat} {v : Word} (h : Memory.wf m = true)
    (hlo : keyBase ≤ a) (ha : a + 4 ≤ windowEnd) (hd : b + 4 ≤ a ∨ a + 4 ≤ b) :
    Memory.readWord (Memory.writeWord m a v) b = Memory.readWord m b := by
  have o : ∀ j, j < 4 → Memory.read (Memory.writeWord m a v) (b + j) = Memory.read m (b + j) := by
    intro j hj
    rw [Memory.read_writeWord h hlo ha, if_neg (by omega)]
  unfold Memory.readWord
  rw [o 1 (by omega), o 2 (by omega), o 3 (by omega), show b = b + 0 from rfl, o 0 (by omega)]

@[simp] theorem Memory.readBytes_length (m : List Host.Cell) (a n : Nat) : (Memory.readBytes m a n).length = n := by
  simp [Memory.readBytes]

/-- Byte `i` of a byte string of the buffers. -/
theorem Memory.readBytes_getD (m : List Host.Cell) (a : Nat) {n i : Nat} (h : i < n) :
    (Memory.readBytes m a n).getD i 0 = Memory.read m (a + i) := by
  simp [Memory.readBytes, h]

/-- A byte string depends only on the bytes it reads. -/
theorem Memory.readBytes_congr {m m' : List Host.Cell} {a n : Nat}
    (h : ∀ i, i < n → Memory.read m (a + i) = Memory.read m' (a + i)) :
    Memory.readBytes m a n = Memory.readBytes m' a n := by
  unfold Memory.readBytes
  exact List.map_congr_left fun i hi => h i (List.mem_range.mp hi)

end Sys2Proof.Machine
end

