-- ==== Sys2Proof/Laws/State.lean ====
section
/-! SUPPORT. One lemma per field per update of State, so that no proof unfolds a record update. -/
namespace Sys2Proof.Machine

/-! ### collide -/

@[simp] theorem State.collide_done (s : State) : s.collide.done = s.done := rfl
@[simp] theorem State.collide_err (s : State) : s.collide.err = s.err := rfl
@[simp] theorem State.collide_lastOp (s : State) : s.collide.lastOp = s.lastOp := rfl
@[simp] theorem State.collide_coll (s : State) : s.collide.coll = true := rfl
@[simp] theorem State.collide_digits (s : State) : s.collide.digits = s.digits := rfl
@[simp] theorem State.collide_threshold (s : State) : s.collide.threshold = s.threshold := rfl
@[simp] theorem State.collide_keyLen (s : State) : s.collide.keyLen = s.keyLen := rfl
@[simp] theorem State.collide_msgLen (s : State) : s.collide.msgLen = s.msgLen := rfl
@[simp] theorem State.collide_submitted (s : State) : s.collide.submitted = s.submitted := rfl
@[simp] theorem State.collide_counter (s : State) : s.collide.counter = s.counter := rfl
@[simp] theorem State.collide_period (s : State) : s.collide.period = s.period := rfl
@[simp] theorem State.collide_t0 (s : State) : s.collide.t0 = s.t0 := rfl
@[simp] theorem State.collide_drift (s : State) : s.collide.drift = s.drift := rfl
@[simp] theorem State.collide_now (s : State) : s.collide.now = s.now := rfl
@[simp] theorem State.collide_digest (s : State) : s.collide.digest = s.digest := rfl
@[simp] theorem State.collide_offset (s : State) : s.collide.offset = s.offset := rfl
@[simp] theorem State.collide_snum (s : State) : s.collide.snum = s.snum := rfl
@[simp] theorem State.collide_code (s : State) : s.collide.code = s.code := rfl
@[simp] theorem State.collide_vsteps (s : State) : s.collide.vsteps = s.vsteps := rfl
@[simp] theorem State.collide_vctr (s : State) : s.collide.vctr = s.vctr := rfl
@[simp] theorem State.collide_mem (s : State) : s.collide.mem = s.mem := rfl
@[simp] theorem State.collide_phase (s : State) : s.collide.phase = s.phase := rfl
@[simp] theorem State.collide_iter (s : State) : s.collide.iter = s.iter := rfl
@[simp] theorem State.collide_resetIn (s : State) : s.collide.resetIn = s.resetIn := rfl
@[simp] theorem State.collide_script (s : State) : s.collide.script = s.script := rfl
@[simp] theorem State.collide_turns (s : State) : s.collide.turns = s.turns := rfl
@[simp] theorem State.collide_reads (s : State) : s.collide.reads = s.reads := rfl

/-! ### accept -/

@[simp] theorem State.accept_done (s : State) (w : Word) : (s.accept w).done = false := rfl
@[simp] theorem State.accept_err (s : State) (w : Word) : (s.accept w).err = 0 := rfl
@[simp] theorem State.accept_lastOp (s : State) (w : Word) : (s.accept w).lastOp = opField w := rfl
@[simp] theorem State.accept_coll (s : State) (w : Word) : (s.accept w).coll = s.coll := rfl
@[simp] theorem State.accept_digits (s : State) (w : Word) : (s.accept w).digits = s.digits := rfl
@[simp] theorem State.accept_threshold (s : State) (w : Word) : (s.accept w).threshold = s.threshold := rfl
@[simp] theorem State.accept_keyLen (s : State) (w : Word) : (s.accept w).keyLen = s.keyLen := rfl
@[simp] theorem State.accept_msgLen (s : State) (w : Word) : (s.accept w).msgLen = s.msgLen := rfl
@[simp] theorem State.accept_submitted (s : State) (w : Word) : (s.accept w).submitted = s.submitted := rfl
@[simp] theorem State.accept_counter (s : State) (w : Word) : (s.accept w).counter = s.counter := rfl
@[simp] theorem State.accept_period (s : State) (w : Word) : (s.accept w).period = s.period := rfl
@[simp] theorem State.accept_t0 (s : State) (w : Word) : (s.accept w).t0 = s.t0 := rfl
@[simp] theorem State.accept_drift (s : State) (w : Word) : (s.accept w).drift = s.drift := rfl
@[simp] theorem State.accept_now (s : State) (w : Word) : (s.accept w).now = s.now := rfl
@[simp] theorem State.accept_digest (s : State) (w : Word) : (s.accept w).digest = s.digest := rfl
@[simp] theorem State.accept_offset (s : State) (w : Word) : (s.accept w).offset = s.offset := rfl
@[simp] theorem State.accept_snum (s : State) (w : Word) : (s.accept w).snum = s.snum := rfl
@[simp] theorem State.accept_code (s : State) (w : Word) : (s.accept w).code = s.code := rfl
@[simp] theorem State.accept_vsteps (s : State) (w : Word) : (s.accept w).vsteps = s.vsteps := rfl
@[simp] theorem State.accept_vctr (s : State) (w : Word) : (s.accept w).vctr = s.vctr := rfl
@[simp] theorem State.accept_mem (s : State) (w : Word) : (s.accept w).mem = s.mem := rfl
@[simp] theorem State.accept_phase (s : State) (w : Word) : (s.accept w).phase = .running (decode w) := rfl
@[simp] theorem State.accept_iter (s : State) (w : Word) : (s.accept w).iter = startIter (decode w) := rfl
@[simp] theorem State.accept_resetIn (s : State) (w : Word) : (s.accept w).resetIn = s.resetIn := rfl
@[simp] theorem State.accept_script (s : State) (w : Word) : (s.accept w).script = s.script := rfl
@[simp] theorem State.accept_turns (s : State) (w : Word) : (s.accept w).turns = s.turns := rfl
@[simp] theorem State.accept_reads (s : State) (w : Word) : (s.accept w).reads = s.reads := rfl

/-! ### perform -/

@[simp] theorem State.perform_done (s : State) (w : Writes) : (s.perform w).done = s.done := rfl
@[simp] theorem State.perform_err (s : State) (w : Writes) : (s.perform w).err = s.err := rfl
@[simp] theorem State.perform_lastOp (s : State) (w : Writes) : (s.perform w).lastOp = s.lastOp := rfl
@[simp] theorem State.perform_coll (s : State) (w : Writes) : (s.perform w).coll = s.coll := rfl
@[simp] theorem State.perform_digits (s : State) (w : Writes) : (s.perform w).digits = s.digits := rfl
@[simp] theorem State.perform_threshold (s : State) (w : Writes) : (s.perform w).threshold = s.threshold := rfl
@[simp] theorem State.perform_keyLen (s : State) (w : Writes) : (s.perform w).keyLen = s.keyLen := rfl
@[simp] theorem State.perform_msgLen (s : State) (w : Writes) : (s.perform w).msgLen = s.msgLen := rfl
@[simp] theorem State.perform_submitted (s : State) (w : Writes) : (s.perform w).submitted = s.submitted := rfl
@[simp] theorem State.perform_counter (s : State) (w : Writes) : (s.perform w).counter = w.counter.getD s.counter := rfl
@[simp] theorem State.perform_period (s : State) (w : Writes) : (s.perform w).period = s.period := rfl
@[simp] theorem State.perform_t0 (s : State) (w : Writes) : (s.perform w).t0 = s.t0 := rfl
@[simp] theorem State.perform_drift (s : State) (w : Writes) : (s.perform w).drift = s.drift := rfl
@[simp] theorem State.perform_now (s : State) (w : Writes) : (s.perform w).now = s.now := rfl
@[simp] theorem State.perform_digest (s : State) (w : Writes) : (s.perform w).digest = w.digest.getD s.digest := rfl
@[simp] theorem State.perform_offset (s : State) (w : Writes) : (s.perform w).offset = (w.truncation.map (·.offset)).getD s.offset := rfl
@[simp] theorem State.perform_snum (s : State) (w : Writes) : (s.perform w).snum = (w.truncation.map (·.snum)).getD s.snum := rfl
@[simp] theorem State.perform_code (s : State) (w : Writes) : (s.perform w).code = (w.truncation.map (fun t => BitVec.ofNat 27 t.code)).getD s.code := rfl
@[simp] theorem State.perform_vsteps (s : State) (w : Writes) : (s.perform w).vsteps = (w.sync.map (·.1)).getD s.vsteps := rfl
@[simp] theorem State.perform_vctr (s : State) (w : Writes) : (s.perform w).vctr = (w.sync.map (·.2)).getD s.vctr := rfl
@[simp] theorem State.perform_mem (s : State) (w : Writes) : (s.perform w).mem = s.mem := rfl
@[simp] theorem State.perform_phase (s : State) (w : Writes) : (s.perform w).phase = s.phase := rfl
@[simp] theorem State.perform_iter (s : State) (w : Writes) : (s.perform w).iter = s.iter := rfl
@[simp] theorem State.perform_resetIn (s : State) (w : Writes) : (s.perform w).resetIn = s.resetIn := rfl
@[simp] theorem State.perform_script (s : State) (w : Writes) : (s.perform w).script = s.script := rfl
@[simp] theorem State.perform_turns (s : State) (w : Writes) : (s.perform w).turns = s.turns := rfl
@[simp] theorem State.perform_reads (s : State) (w : Writes) : (s.perform w).reads = s.reads := rfl

/-! ### settle -/

@[simp] theorem State.settle_done (s : State) (c : BitVec 4) : (s.settle c).done = true := rfl
@[simp] theorem State.settle_err (s : State) (c : BitVec 4) : (s.settle c).err = c := rfl
@[simp] theorem State.settle_lastOp (s : State) (c : BitVec 4) : (s.settle c).lastOp = s.lastOp := rfl
@[simp] theorem State.settle_coll (s : State) (c : BitVec 4) : (s.settle c).coll = s.coll := rfl
@[simp] theorem State.settle_digits (s : State) (c : BitVec 4) : (s.settle c).digits = s.digits := rfl
@[simp] theorem State.settle_threshold (s : State) (c : BitVec 4) : (s.settle c).threshold = s.threshold := rfl
@[simp] theorem State.settle_keyLen (s : State) (c : BitVec 4) : (s.settle c).keyLen = s.keyLen := rfl
@[simp] theorem State.settle_msgLen (s : State) (c : BitVec 4) : (s.settle c).msgLen = s.msgLen := rfl
@[simp] theorem State.settle_submitted (s : State) (c : BitVec 4) : (s.settle c).submitted = s.submitted := rfl
@[simp] theorem State.settle_counter (s : State) (c : BitVec 4) : (s.settle c).counter = s.counter := rfl
@[simp] theorem State.settle_period (s : State) (c : BitVec 4) : (s.settle c).period = s.period := rfl
@[simp] theorem State.settle_t0 (s : State) (c : BitVec 4) : (s.settle c).t0 = s.t0 := rfl
@[simp] theorem State.settle_drift (s : State) (c : BitVec 4) : (s.settle c).drift = s.drift := rfl
@[simp] theorem State.settle_now (s : State) (c : BitVec 4) : (s.settle c).now = s.now := rfl
@[simp] theorem State.settle_digest (s : State) (c : BitVec 4) : (s.settle c).digest = s.digest := rfl
@[simp] theorem State.settle_offset (s : State) (c : BitVec 4) : (s.settle c).offset = s.offset := rfl
@[simp] theorem State.settle_snum (s : State) (c : BitVec 4) : (s.settle c).snum = s.snum := rfl
@[simp] theorem State.settle_code (s : State) (c : BitVec 4) : (s.settle c).code = s.code := rfl
@[simp] theorem State.settle_vsteps (s : State) (c : BitVec 4) : (s.settle c).vsteps = s.vsteps := rfl
@[simp] theorem State.settle_vctr (s : State) (c : BitVec 4) : (s.settle c).vctr = s.vctr := rfl
@[simp] theorem State.settle_mem (s : State) (c : BitVec 4) : (s.settle c).mem = s.mem := rfl
@[simp] theorem State.settle_phase (s : State) (c : BitVec 4) : (s.settle c).phase = .idle := rfl
@[simp] theorem State.settle_iter (s : State) (c : BitVec 4) : (s.settle c).iter = none := rfl
@[simp] theorem State.settle_resetIn (s : State) (c : BitVec 4) : (s.settle c).resetIn = s.resetIn := rfl
@[simp] theorem State.settle_script (s : State) (c : BitVec 4) : (s.settle c).script = s.script := rfl
@[simp] theorem State.settle_turns (s : State) (c : BitVec 4) : (s.settle c).turns = s.turns := rfl
@[simp] theorem State.settle_reads (s : State) (c : BitVec 4) : (s.settle c).reads = s.reads := rfl

/-! ### assertReset -/

@[simp] theorem State.assertReset_done (s : State) : s.assertReset.done = State.reset.done := rfl
@[simp] theorem State.assertReset_err (s : State) : s.assertReset.err = State.reset.err := rfl
@[simp] theorem State.assertReset_lastOp (s : State) : s.assertReset.lastOp = State.reset.lastOp := rfl
@[simp] theorem State.assertReset_coll (s : State) : s.assertReset.coll = State.reset.coll := rfl
@[simp] theorem State.assertReset_digits (s : State) : s.assertReset.digits = State.reset.digits := rfl
@[simp] theorem State.assertReset_threshold (s : State) : s.assertReset.threshold = State.reset.threshold := rfl
@[simp] theorem State.assertReset_keyLen (s : State) : s.assertReset.keyLen = State.reset.keyLen := rfl
@[simp] theorem State.assertReset_msgLen (s : State) : s.assertReset.msgLen = State.reset.msgLen := rfl
@[simp] theorem State.assertReset_submitted (s : State) : s.assertReset.submitted = State.reset.submitted := rfl
@[simp] theorem State.assertReset_counter (s : State) : s.assertReset.counter = State.reset.counter := rfl
@[simp] theorem State.assertReset_period (s : State) : s.assertReset.period = State.reset.period := rfl
@[simp] theorem State.assertReset_t0 (s : State) : s.assertReset.t0 = State.reset.t0 := rfl
@[simp] theorem State.assertReset_drift (s : State) : s.assertReset.drift = State.reset.drift := rfl
@[simp] theorem State.assertReset_now (s : State) : s.assertReset.now = State.reset.now := rfl
@[simp] theorem State.assertReset_digest (s : State) : s.assertReset.digest = State.reset.digest := rfl
@[simp] theorem State.assertReset_offset (s : State) : s.assertReset.offset = State.reset.offset := rfl
@[simp] theorem State.assertReset_snum (s : State) : s.assertReset.snum = State.reset.snum := rfl
@[simp] theorem State.assertReset_code (s : State) : s.assertReset.code = State.reset.code := rfl
@[simp] theorem State.assertReset_vsteps (s : State) : s.assertReset.vsteps = State.reset.vsteps := rfl
@[simp] theorem State.assertReset_vctr (s : State) : s.assertReset.vctr = State.reset.vctr := rfl
@[simp] theorem State.assertReset_mem (s : State) : s.assertReset.mem = State.reset.mem := rfl
@[simp] theorem State.assertReset_phase (s : State) : s.assertReset.phase = State.reset.phase := rfl
@[simp] theorem State.assertReset_iter (s : State) : s.assertReset.iter = State.reset.iter := rfl
@[simp] theorem State.assertReset_resetIn (s : State) : s.assertReset.resetIn = true := rfl
@[simp] theorem State.assertReset_script (s : State) : s.assertReset.script = s.script := rfl
@[simp] theorem State.assertReset_turns (s : State) : s.assertReset.turns = s.turns := rfl
@[simp] theorem State.assertReset_reads (s : State) : s.assertReset.reads = s.reads := rfl

/-! ### releaseReset -/

@[simp] theorem State.releaseReset_done (s : State) : s.releaseReset.done = s.done := rfl
@[simp] theorem State.releaseReset_err (s : State) : s.releaseReset.err = s.err := rfl
@[simp] theorem State.releaseReset_lastOp (s : State) : s.releaseReset.lastOp = s.lastOp := rfl
@[simp] theorem State.releaseReset_coll (s : State) : s.releaseReset.coll = s.coll := rfl
@[simp] theorem State.releaseReset_digits (s : State) : s.releaseReset.digits = s.digits := rfl
@[simp] theorem State.releaseReset_threshold (s : State) : s.releaseReset.threshold = s.threshold := rfl
@[simp] theorem State.releaseReset_keyLen (s : State) : s.releaseReset.keyLen = s.keyLen := rfl
@[simp] theorem State.releaseReset_msgLen (s : State) : s.releaseReset.msgLen = s.msgLen := rfl
@[simp] theorem State.releaseReset_submitted (s : State) : s.releaseReset.submitted = s.submitted := rfl
@[simp] theorem State.releaseReset_counter (s : State) : s.releaseReset.counter = s.counter := rfl
@[simp] theorem State.releaseReset_period (s : State) : s.releaseReset.period = s.period := rfl
@[simp] theorem State.releaseReset_t0 (s : State) : s.releaseReset.t0 = s.t0 := rfl
@[simp] theorem State.releaseReset_drift (s : State) : s.releaseReset.drift = s.drift := rfl
@[simp] theorem State.releaseReset_now (s : State) : s.releaseReset.now = s.now := rfl
@[simp] theorem State.releaseReset_digest (s : State) : s.releaseReset.digest = s.digest := rfl
@[simp] theorem State.releaseReset_offset (s : State) : s.releaseReset.offset = s.offset := rfl
@[simp] theorem State.releaseReset_snum (s : State) : s.releaseReset.snum = s.snum := rfl
@[simp] theorem State.releaseReset_code (s : State) : s.releaseReset.code = s.code := rfl
@[simp] theorem State.releaseReset_vsteps (s : State) : s.releaseReset.vsteps = s.vsteps := rfl
@[simp] theorem State.releaseReset_vctr (s : State) : s.releaseReset.vctr = s.vctr := rfl
@[simp] theorem State.releaseReset_mem (s : State) : s.releaseReset.mem = s.mem := rfl
@[simp] theorem State.releaseReset_phase (s : State) : s.releaseReset.phase = s.phase := rfl
@[simp] theorem State.releaseReset_iter (s : State) : s.releaseReset.iter = s.iter := rfl
@[simp] theorem State.releaseReset_resetIn (s : State) : s.releaseReset.resetIn = false := rfl
@[simp] theorem State.releaseReset_script (s : State) : s.releaseReset.script = s.script := rfl
@[simp] theorem State.releaseReset_turns (s : State) : s.releaseReset.turns = s.turns := rfl
@[simp] theorem State.releaseReset_reads (s : State) : s.releaseReset.reads = s.reads := rfl

/-! ### returnRead -/

@[simp] theorem State.returnRead_done (s : State) (v : Word) : (s.returnRead v).done = s.done := rfl
@[simp] theorem State.returnRead_err (s : State) (v : Word) : (s.returnRead v).err = s.err := rfl
@[simp] theorem State.returnRead_lastOp (s : State) (v : Word) : (s.returnRead v).lastOp = s.lastOp := rfl
@[simp] theorem State.returnRead_coll (s : State) (v : Word) : (s.returnRead v).coll = s.coll := rfl
@[simp] theorem State.returnRead_digits (s : State) (v : Word) : (s.returnRead v).digits = s.digits := rfl
@[simp] theorem State.returnRead_threshold (s : State) (v : Word) : (s.returnRead v).threshold = s.threshold := rfl
@[simp] theorem State.returnRead_keyLen (s : State) (v : Word) : (s.returnRead v).keyLen = s.keyLen := rfl
@[simp] theorem State.returnRead_msgLen (s : State) (v : Word) : (s.returnRead v).msgLen = s.msgLen := rfl
@[simp] theorem State.returnRead_submitted (s : State) (v : Word) : (s.returnRead v).submitted = s.submitted := rfl
@[simp] theorem State.returnRead_counter (s : State) (v : Word) : (s.returnRead v).counter = s.counter := rfl
@[simp] theorem State.returnRead_period (s : State) (v : Word) : (s.returnRead v).period = s.period := rfl
@[simp] theorem State.returnRead_t0 (s : State) (v : Word) : (s.returnRead v).t0 = s.t0 := rfl
@[simp] theorem State.returnRead_drift (s : State) (v : Word) : (s.returnRead v).drift = s.drift := rfl
@[simp] theorem State.returnRead_now (s : State) (v : Word) : (s.returnRead v).now = s.now := rfl
@[simp] theorem State.returnRead_digest (s : State) (v : Word) : (s.returnRead v).digest = s.digest := rfl
@[simp] theorem State.returnRead_offset (s : State) (v : Word) : (s.returnRead v).offset = s.offset := rfl
@[simp] theorem State.returnRead_snum (s : State) (v : Word) : (s.returnRead v).snum = s.snum := rfl
@[simp] theorem State.returnRead_code (s : State) (v : Word) : (s.returnRead v).code = s.code := rfl
@[simp] theorem State.returnRead_vsteps (s : State) (v : Word) : (s.returnRead v).vsteps = s.vsteps := rfl
@[simp] theorem State.returnRead_vctr (s : State) (v : Word) : (s.returnRead v).vctr = s.vctr := rfl
@[simp] theorem State.returnRead_mem (s : State) (v : Word) : (s.returnRead v).mem = s.mem := rfl
@[simp] theorem State.returnRead_phase (s : State) (v : Word) : (s.returnRead v).phase = s.phase := rfl
@[simp] theorem State.returnRead_iter (s : State) (v : Word) : (s.returnRead v).iter = s.iter := rfl
@[simp] theorem State.returnRead_resetIn (s : State) (v : Word) : (s.returnRead v).resetIn = s.resetIn := rfl
@[simp] theorem State.returnRead_script (s : State) (v : Word) : (s.returnRead v).script = s.script := rfl
@[simp] theorem State.returnRead_turns (s : State) (v : Word) : (s.returnRead v).turns = s.turns := rfl
@[simp] theorem State.returnRead_reads (s : State) (v : Word) : (s.returnRead v).reads = s.reads ++ [v] := rfl

/-! ### BUSY (R24, R44) -/

theorem State.busy_eq_true_iff (s : State) : s.busy = true ↔ ∃ i, s.phase = .running i := by
  unfold State.busy
  cases s.phase <;> simp

theorem State.busy_eq_false_iff (s : State) : s.busy = false ↔ s.phase = .idle := by
  unfold State.busy
  cases s.phase <;> simp

theorem State.busy_of_running {s : State} {i : Instr} (h : s.phase = .running i) : s.busy = true :=
  s.busy_eq_true_iff.mpr ⟨i, h⟩

/-- BUSY depends on the phase alone. -/
theorem State.busy_congr {s t : State} (h : s.phase = t.phase) : s.busy = t.busy := by
  unfold State.busy
  rw [h]

@[simp] theorem State.collide_busy (s : State) : s.collide.busy = s.busy := rfl
@[simp] theorem State.accept_busy (s : State) (w : Word) : (s.accept w).busy = true := rfl
@[simp] theorem State.perform_busy (s : State) (w : Writes) : (s.perform w).busy = s.busy := rfl
@[simp] theorem State.settle_busy (s : State) (c : BitVec 4) : (s.settle c).busy = false := rfl
@[simp] theorem State.assertReset_busy (s : State) : s.assertReset.busy = false := rfl
@[simp] theorem State.releaseReset_busy (s : State) : s.releaseReset.busy = s.busy := rfl
@[simp] theorem State.returnRead_busy (s : State) (v : Word) : (s.returnRead v).busy = s.busy := rfl

/-! ### Completion (R87, R214) -/

theorem State.finish_complete (s : State) (w : Writes) : s.finish (.complete w) = (s.perform w).settle 0 := rfl

theorem State.finish_error (s : State) (e : ErrCode) : s.finish (.error e) = s.settle e.code := rfl

/-- No error has code 0 (R210). -/
theorem ErrCode.code_ne_zero (e : ErrCode) : e.code ≠ 0 := by cases e <;> decide

theorem ErrCode.code_le_six (e : ErrCode) : e.code.toNat ≤ 6 := by cases e <;> decide

@[simp] theorem State.finish_done (s : State) (o : CmdOutcome) : (s.finish o).done = true := by cases o <;> rfl
@[simp] theorem State.finish_lastOp (s : State) (o : CmdOutcome) : (s.finish o).lastOp = s.lastOp := by cases o <;> rfl
@[simp] theorem State.finish_coll (s : State) (o : CmdOutcome) : (s.finish o).coll = s.coll := by cases o <;> rfl
@[simp] theorem State.finish_digits (s : State) (o : CmdOutcome) : (s.finish o).digits = s.digits := by cases o <;> rfl
@[simp] theorem State.finish_threshold (s : State) (o : CmdOutcome) : (s.finish o).threshold = s.threshold := by cases o <;> rfl
@[simp] theorem State.finish_keyLen (s : State) (o : CmdOutcome) : (s.finish o).keyLen = s.keyLen := by cases o <;> rfl
@[simp] theorem State.finish_msgLen (s : State) (o : CmdOutcome) : (s.finish o).msgLen = s.msgLen := by cases o <;> rfl
@[simp] theorem State.finish_submitted (s : State) (o : CmdOutcome) : (s.finish o).submitted = s.submitted := by cases o <;> rfl
@[simp] theorem State.finish_period (s : State) (o : CmdOutcome) : (s.finish o).period = s.period := by cases o <;> rfl
@[simp] theorem State.finish_t0 (s : State) (o : CmdOutcome) : (s.finish o).t0 = s.t0 := by cases o <;> rfl
@[simp] theorem State.finish_drift (s : State) (o : CmdOutcome) : (s.finish o).drift = s.drift := by cases o <;> rfl
@[simp] theorem State.finish_now (s : State) (o : CmdOutcome) : (s.finish o).now = s.now := by cases o <;> rfl
@[simp] theorem State.finish_mem (s : State) (o : CmdOutcome) : (s.finish o).mem = s.mem := by cases o <;> rfl
@[simp] theorem State.finish_phase (s : State) (o : CmdOutcome) : (s.finish o).phase = .idle := by cases o <;> rfl
@[simp] theorem State.finish_iter (s : State) (o : CmdOutcome) : (s.finish o).iter = none := by cases o <;> rfl
@[simp] theorem State.finish_resetIn (s : State) (o : CmdOutcome) : (s.finish o).resetIn = s.resetIn := by cases o <;> rfl
@[simp] theorem State.finish_script (s : State) (o : CmdOutcome) : (s.finish o).script = s.script := by cases o <;> rfl
@[simp] theorem State.finish_turns (s : State) (o : CmdOutcome) : (s.finish o).turns = s.turns := by cases o <;> rfl
@[simp] theorem State.finish_reads (s : State) (o : CmdOutcome) : (s.finish o).reads = s.reads := by cases o <;> rfl
@[simp] theorem State.finish_busy (s : State) (o : CmdOutcome) : (s.finish o).busy = false := by cases o <;> rfl

end Sys2Proof.Machine
end

