-- ==== Sys2Proof/Laws/RegisterMap.lean ====
section
/-! SUPPORT. The register map said once: where each register stands, what a host write can do (R20, R49). -/
namespace Sys2Proof.Machine

/-- Every register stands at its own offset (R20). -/
theorem regAt_addr (r : Reg) : regAt r.addr = r := by
  have hk : keyBase = 0x100 := rfl
  have hm : msgBase = 0x180 := rfl
  have hw : windowEnd = 0x200 := rfl
  cases r with
  | key i =>
    have hi := i.isLt
    have e : regAt (keyBase + 4 * i.val) = .key (Fin.ofNat 32 ((keyBase + 4 * i.val - keyBase) / 4)) :=
      if_pos (by constructor <;> omega)
    rw [Reg.addr, e]
    congr 1
    apply Fin.ext
    show (keyBase + 4 * i.val - keyBase) / 4 % 32 = i.val
    omega
  | msg i =>
    have hi := i.isLt
    have e : regAt (msgBase + 4 * i.val) = .msg (Fin.ofNat 32 ((msgBase + 4 * i.val - msgBase) / 4)) := by
      unfold regAt
      rw [if_neg (by omega), if_pos (by constructor <;> omega)]
    rw [Reg.addr, e]
    congr 1
    apply Fin.ext
    show (msgBase + 4 * i.val - msgBase) / 4 % 32 = i.val
    omega
  | _ => rfl

/-- A register but the reserved space stands at no other word offset than its own (R20). -/
theorem eq_addr_of_regAt {off : Nat} {r : Reg} (h4 : off % 4 = 0) (hl : off ≤ 0x1FC) (h : regAt off = r)
    (hr : r ≠ .reserved) : off = r.addr := by
  unfold regAt at h
  simp only [keyBase, msgBase, windowEnd] at h
  split at h
  · subst h
    show off = 256 + 4 * ((off - 256) / 4 % 32)
    omega
  · split at h
    · subst h
      show off = 384 + 4 * ((off - 384) / 4 % 32)
      omega
    · have hlt : off < 256 := by omega
      subst h
      revert hr h4
      interval_cases off <;>
        first
          | exact fun h => absurd h (by decide)
          | exact fun _ _ => rfl
          | exact fun _ h => absurd rfl h

/-- Where a write is dropped while BUSY = 1, it is at one of the offsets that R49 lists. -/
theorem offset_of_dropsWhileBusy {off : Nat} (h4 : off % 4 = 0) (hl : off ≤ 0x1FC)
    (h : (regAt off).dropsWhileBusy = true) :
    off = 0x004 ∨ (0x00C ≤ off ∧ off ≤ 0x044) ∨ (0x050 ≤ off ∧ off ≤ 0x060) ∨ (0x100 ≤ off ∧ off ≤ 0x1FC) := by
  have hne : regAt off ≠ .reserved := by
    intro h'
    rw [h'] at h
    cases h
  have ha := eq_addr_of_regAt h4 hl rfl hne
  revert ha h
  cases regAt off <;> intro h ha <;>
    first
      | (simp only [Reg.addr, keyBase, msgBase] at ha; omega)
      | cases h

/-! ### STATUS writes (R28) -/

theorem State.writeStatus_eq (s : State) (v : Word) :
    s.writeStatus v = { s with coll := if v.getLsbD 16 then false else s.coll } := by
  unfold State.writeStatus
  split <;> rfl

/-- A host write that is not dropped, said once: it accepts a command, or it changes only the register
written, one of COLL, the operand registers, DIGEST and the buffers. -/
theorem writeReg_cases (r : Reg) (v : Word) (s : State) :
    (r = .cmd ∧ writeReg r v s = s.accept v) ∨
      ∃ coll digits threshold keyLen msgLen submitted counter period t0 drift now digest mem,
        writeReg r v s =
          { s with
            coll := coll, digits := digits, threshold := threshold, keyLen := keyLen, msgLen := msgLen,
            submitted := submitted, counter := counter, period := period, t0 := t0, drift := drift,
            now := now, digest := digest, mem := mem } ∧
        (coll = s.coll ∨ (coll = false ∧ r = .status ∧ v.getLsbD 16 = true)) ∧
        (digits = s.digits ∨ r = .digits) ∧ (threshold = s.threshold ∨ r = .threshold) ∧
        (keyLen = s.keyLen ∨ r = .keyLen) ∧ (msgLen = s.msgLen ∨ r = .msgLen) ∧
        (submitted = s.submitted ∨ r = .submitted) ∧
        (period = s.period ∨ r = .periodHi ∨ r = .periodLo) ∧ (t0 = s.t0 ∨ r = .t0Hi ∨ r = .t0Lo) ∧
        (drift = s.drift ∨ r = .driftHi ∨ r = .driftLo) ∧
        (counter = s.counter ∨ r = .counterHi ∨ r = .counterLo) ∧
        (now = s.now ∨ r = .nowHi ∨ r = .nowLo) ∧
        (Memory.wf s.mem = true → Memory.wf mem = true) ∧
        (mem = s.mem ∨ (∃ i, r = .key i) ∨ ∃ i, r = .msg i) ∧
        (digest = s.digest ∨ r = .digest0 ∨ r = .digest1 ∨ r = .digest2 ∨ r = .digest3 ∨ r = .digest4) := by
  cases r with
  | cmd => exact .inl ⟨rfl, rfl⟩
  | status =>
    refine .inr ⟨_, _, _, _, _, _, _, _, _, _, _, _, _, s.writeStatus_eq v, ?_⟩
    cases v.getLsbD 16 <;> simp
  | key i =>
    have := i.isLt
    have hw : Memory.wf s.mem = true → Memory.wf (Memory.writeWord s.mem (keyBase + 4 * i.val) v) = true :=
      fun h => Memory.writeWord_wf h (by omega) (by simp only [keyBase, windowEnd]; omega)
    exact .inr ⟨_, _, _, _, _, _, _, _, _, _, _, _, _, rfl, by simpa using hw⟩
  | msg i =>
    have := i.isLt
    have hw : Memory.wf s.mem = true → Memory.wf (Memory.writeWord s.mem (msgBase + 4 * i.val) v) = true :=
      fun h => Memory.writeWord_wf h (by simp only [keyBase, msgBase]; omega)
        (by simp only [msgBase, windowEnd]; omega)
    exact .inr ⟨_, _, _, _, _, _, _, _, _, _, _, _, _, rfl, by simpa using hw⟩
  | _ => exact .inr ⟨_, _, _, _, _, _, _, _, _, _, _, _, _, rfl, by simp⟩

/-- A host write while BUSY = 1, said once: it touches COLL alone, setting it where the write is dropped and
clearing it where STATUS is written with bit 16 = 1 (R28, R49). -/
theorem memWrite_busy_cases {s : State} (h : s.busy = true) (off : Nat) (v : Word) :
    ∃ c, memWrite off v s = { s with coll := c } ∧
      (c = s.coll ∨ (c = true ∧ (regAt off).dropsWhileBusy = true) ∨
        (c = false ∧ regAt off = .status ∧ v.getLsbD 16 = true)) := by
  unfold memWrite
  by_cases hd : (regAt off).dropsWhileBusy = true
  · exact ⟨true, by simp [h, hd, State.collide], .inr (.inl ⟨rfl, hd⟩)⟩
  · simp only [h, hd, Bool.and_false, if_false, Bool.false_eq_true]
    revert hd
    cases regAt off with
    | status =>
      refine fun _ => ⟨_, s.writeStatus_eq v, ?_⟩
      cases v.getLsbD 16 <;> simp
    | _ => first | exact fun hd => absurd rfl hd | exact fun _ => ⟨s.coll, rfl, .inl rfl⟩

theorem memWrite_busy {s : State} (h : s.busy = true) (off : Nat) (v : Word) :
    ∃ c, memWrite off v s = { s with coll := c } :=
  let ⟨c, hc, _⟩ := memWrite_busy_cases h off v
  ⟨c, hc⟩

/-- A host write on an idle block is performed (R49). -/
theorem memWrite_idle {s : State} (h : s.busy = false) (off : Nat) (v : Word) :
    memWrite off v s = writeReg (regAt off) v s := by
  simp [memWrite, h]

end Sys2Proof.Machine
end

