-- ==== Sys2Proof/Laws/Commands.lean ====
section
/-! SUPPORT. The commands said once: a completion finishes with the command's outcome (R13, R87), and what an
outcome can write (R81). -/
namespace Sys2Proof.Machine

/-- Every command completes: `exec` is the completion step with the command's outcome. -/
theorem exec_eq (i : Instr) (s : State) : exec i s = .next (s.finish (commandOutcome i s)) := by
  cases i <;> rfl

theorem exec_next {i : Instr} {s t : State} (h : exec i s = .next t) : t = s.finish (commandOutcome i s) := by
  rw [exec_eq] at h
  cases h
  rfl

/-- The search of R182 ends with INVALID_THRESHOLD or writes VSTEPS and VCTR alone. -/
theorem verifySearch_cases (key : List Byte) (d sub th rem : Nat) (ctr : Dword) :
    verifySearch key d sub th rem ctr = .error .invalidThreshold ∨
      ∃ k c, verifySearch key d sub th rem ctr = .complete { sync := some (k, c) } := by
  induction rem generalizing ctr with
  | zero => exact .inl rfl
  | succ rem ih =>
    unfold verifySearch
    split
    · exact .inr ⟨_, _, rfl⟩
    · exact ih _

/-- What a command that succeeds writes (R81, the column "writes on success"). -/
theorem commandOutcome_writes {i : Instr} {s : State} {w : Writes} (h : commandOutcome i s = .complete w) :
    (∃ d, i = .hmac ∧ w = { digest := some d }) ∨
      (i = .trunc ∧ s.digitsLegal = true ∧
        w = { truncation := some (truncate s.digest.bytes s.digits.toNat) }) ∨
      (i = .hotp ∧ s.digitsLegal = true ∧
        w = { digest := some s.hotpDigest
              truncation := some (truncate s.hotpDigest.bytes s.digits.toNat) }) ∨
      (∃ c, (i = .cinc ∨ i = .totpc) ∧ w = { counter := some c }) ∨
      ∃ k c, i = .verify ∧ w = { sync := some (k, c) } := by
  cases i with
  | hmac =>
    simp only [commandOutcome, State.hmacOutcome] at h
    split at h
    · cases h
    · split at h <;> cases h
      exact .inl ⟨_, rfl, rfl⟩
  | trunc =>
    simp only [commandOutcome, State.truncOutcome] at h
    split at h <;> cases h
    exact .inr (.inl ⟨rfl, by assumption, rfl⟩)
  | hotp =>
    simp only [commandOutcome, State.hotpOutcome] at h
    split at h
    · cases h
    · split at h <;> cases h
      exact .inr (.inr (.inl ⟨rfl, by assumption, rfl⟩))
  | cinc =>
    cases h
    exact .inr (.inr (.inr (.inl ⟨_, .inl rfl, rfl⟩)))
  | totpc =>
    simp only [commandOutcome, State.totpOutcome] at h
    split at h <;> cases h
    exact .inr (.inr (.inr (.inl ⟨_, .inr rfl, rfl⟩)))
  | verify =>
    simp only [commandOutcome, State.verifyOutcome] at h
    split at h
    · cases h
    · split at h
      · rcases verifySearch_cases s.keyBytes (ndigits s.submitted.toNat) s.submitted.toNat
          s.threshold.toNat s.threshold.toNat s.counter with h' | ⟨k, c, h'⟩
        · rw [h'] at h
          cases h
        · rw [h'] at h
          cases h
          exact .inr (.inr (.inr (.inr ⟨k, c, rfl, rfl⟩)))
      · cases h
  | illegal => cases h

end Sys2Proof.Machine
end

