-- ==== Sys2Proof/Laws/Decode.lean ====
section
/-! SUPPORT. What the decoder answers (R85), said once: the two fields determine the word. -/
namespace Sys2Proof

/-- A word is its RSV field followed by its OP field (R80). -/
theorem word_toNat_fields (w : Word) : w.toNat = (rsvField w).toNat * 16 + (opField w).toNat := by
  simp only [rsvField, opField, BitVec.extractLsb'_toNat, Nat.shiftRight_zero]
  have := w.isLt
  rw [Nat.shiftRight_eq_div_pow]
  omega

/-- A word with RSV = 0 is its OP field. -/
theorem word_toNat_of_rsv_zero {w : Word} (h : rsvField w = 0) : w.toNat = (opField w).toNat := by
  rw [word_toNat_fields, h]
  simp

/-- A word that decodes to a command is that command's word; one that decodes to ILLEGAL is none of the six
(R82, R83). -/
theorem decode_cases (w : Word) :
    (decode w = .hmac ∧ w = 1) ∨ (decode w = .trunc ∧ w = 2) ∨ (decode w = .hotp ∧ w = 3) ∨
      (decode w = .cinc ∧ w = 4) ∨ (decode w = .totpc ∧ w = 5) ∨ (decode w = .verify ∧ w = 6) ∨
      (decode w = .illegal ∧ (rsvField w ≠ 0 ∨ (opField w).toNat = 0 ∨ 7 ≤ (opField w).toNat)) := by
  by_cases h : rsvField w = 0
  · unfold decode
    have e := word_toNat_of_rsv_zero h
    simp only [h, ne_eq, not_true_eq_false, if_false, false_or]
    have key : ∀ n : Nat, (opField w).toNat = n → n < 2 ^ 32 → w = BitVec.ofNat 32 n := by
      intro n hn hl
      apply BitVec.eq_of_toNat_eq
      rw [e, hn, BitVec.toNat_ofNat, Nat.mod_eq_of_lt hl]
    split
    case h_7 h1 h2 h3 h4 h5 h6 =>
      refine Or.inr (Or.inr (Or.inr (Or.inr (Or.inr (Or.inr ⟨rfl, ?_⟩)))))
      have a1 : (opField w).toNat ≠ 1 := h1
      have a2 : (opField w).toNat ≠ 2 := h2
      have a3 : (opField w).toNat ≠ 3 := h3
      have a4 : (opField w).toNat ≠ 4 := h4
      have a5 : (opField w).toNat ≠ 5 := h5
      have a6 : (opField w).toNat ≠ 6 := h6
      omega
    all_goals
      rename_i hn
      have hw := key _ hn (by decide)
      simp [hw]
  · have hd : decode w = .illegal := if_pos h
    exact Or.inr (Or.inr (Or.inr (Or.inr (Or.inr (Or.inr ⟨hd, Or.inl h⟩)))))

end Sys2Proof
end

