-- ==== Sys2Proof/Laws/Operands.lean ====
section
/-! SUPPORT. The halves of a 64-bit register (R63, R65), and the bytes of strings and words. -/
namespace Sys2Proof.Machine

/-- The bits of a double word put together from two words. -/
theorem getLsbD_halves (hi lo : Word) (i : Nat) :
    BitVec.getLsbD (hi ++ lo : Dword) i = if i < 32 then lo.getLsbD i else hi.getLsbD (i - 32) :=
  BitVec.getLsbD_append

@[simp] theorem hiHalf_append (hi lo : Word) : hiHalf (hi ++ lo) = hi := by
  apply BitVec.eq_of_getLsbD_eq
  intro i hi
  have h1 : ¬ 32 + i < 32 := by omega
  rw [hiHalf, BitVec.getLsbD_extractLsb', getLsbD_halves, if_neg h1]
  simp [hi]

@[simp] theorem loHalf_append (hi lo : Word) : loHalf (hi ++ lo) = lo := by
  apply BitVec.eq_of_getLsbD_eq
  intro i hi
  rw [loHalf, BitVec.getLsbD_extractLsb', getLsbD_halves, if_pos (by omega)]
  simp [hi]

@[simp] theorem hiHalf_setHi (d : Dword) (v : Word) : hiHalf (setHi d v) = v := hiHalf_append _ _
@[simp] theorem loHalf_setHi (d : Dword) (v : Word) : loHalf (setHi d v) = loHalf d := loHalf_append _ _
@[simp] theorem hiHalf_setLo (d : Dword) (v : Word) : hiHalf (setLo d v) = hiHalf d := hiHalf_append _ _
@[simp] theorem loHalf_setLo (d : Dword) (v : Word) : loHalf (setLo d v) = v := loHalf_append _ _

@[simp] theorem beBytes_length (n v : Nat) : (beBytes n v).length = n := by
  simp [beBytes]

@[simp] theorem Digest.bytes_length (d : Digest) : d.bytes.length = 20 := by
  simp [Digest.bytes]

/-- The four big-endian bytes of a word are its bit slices from the top down (R39, R63). -/
theorem beBytes_word (w : Word) :
    beBytes 4 w.toNat = [byteOfWord w 0, byteOfWord w 1, byteOfWord w 2, byteOfWord w 3] := by
  have h : ∀ k, BitVec.ofNat 8 (w.toNat >>> k) = w.extractLsb' k 8 := fun k => rfl
  simp only [beBytes, List.range_succ, List.range_zero, List.nil_append, List.cons_append, List.map_cons,
    List.map_nil, h, byteOfWord]

/-- Byte `i` of `be_N(v)` (R10). -/
theorem beBytes_getD {n i : Nat} (v : Nat) (h : i < n) :
    (beBytes n v).getD i 0 = BitVec.ofNat 8 (v >>> (8 * (n - 1 - i))) := by
  simp [beBytes, h]

/-- A string of 8 bytes with bits 63:56 of a double word first is its `be_8` (R62). -/
theorem eq_beBytes_of_slices {b : List Byte} {c : Dword} (hl : b.length = 8)
    (h : ∀ i, i < 8 → b.getD i 0 = c.extractLsb' (56 - 8 * i) 8) : b = beBytes 8 c.toNat := by
  apply List.ext_getElem
  · simp [hl]
  · intro i h1 h2
    have hi : i < 8 := by omega
    have e := beBytes_getD c.toNat hi
    rw [List.getD_eq_getElem _ _ h2] at e
    rw [e, ← List.getD_eq_getElem _ 0 h1, h i hi, show 8 * (8 - 1 - i) = 56 - 8 * i by omega]
    rfl

/-- `from_be` of four bytes, spelled out (R10). -/
theorem fromBe_four (a b c d : Byte) :
    fromBe [a, b, c, d] = ((a.toNat * 256 + b.toNat) * 256 + c.toNat) * 256 + d.toNat := by
  simp [fromBe]

/-- Four bytes make an integer below 2^32. -/
theorem fromBe_four_lt (a b c d : Byte) : fromBe [a, b, c, d] < 2 ^ 32 := by
  rw [fromBe_four]
  have := a.isLt
  have := b.isLt
  have := c.isLt
  have := d.isLt
  omega

/-- The bits of the STATUS word, field by field (R24-R28). -/
theorem State.statusWord_busy (s : State) : s.statusWord.getLsbD 0 = s.busy := by
  simp [State.statusWord]

/-- The STATUS word depends on the five fields alone. -/
theorem State.statusWord_congr {s t : State} (hc : s.coll = t.coll) (hl : s.lastOp = t.lastOp)
    (he : s.err = t.err) (hd : s.done = t.done) (hb : s.busy = t.busy) : s.statusWord = t.statusWord := by
  unfold State.statusWord
  rw [hc, hl, he, hd, hb]

/-! ### The checks on operands (R36, R37, R34, R185) -/

theorem State.keyTooLong_iff (s : State) : s.keyTooLong = true ↔ 128 < s.keyLen.toNat := decide_eq_true_iff
theorem State.msgTooLong_iff (s : State) : s.msgTooLong = true ↔ 128 < s.msgLen.toNat := decide_eq_true_iff
theorem State.digitsLegal_iff (s : State) :
    s.digitsLegal = true ↔ 6 ≤ s.digits.toNat ∧ s.digits.toNat ≤ 8 := decide_eq_true_iff

theorem State.keyTooLong_eq_false {s : State} (h : s.keyLen.toNat ≤ 128) : s.keyTooLong = false := by
  rw [← Bool.not_eq_true, s.keyTooLong_iff]
  omega

theorem State.msgTooLong_eq_false {s : State} (h : s.msgLen.toNat ≤ 128) : s.msgTooLong = false := by
  rw [← Bool.not_eq_true, s.msgTooLong_iff]
  omega

theorem State.digitsLegal_eq_false {s : State} (h : s.digits.toNat < 6 ∨ 8 < s.digits.toNat) :
    s.digitsLegal = false := by
  rw [← Bool.not_eq_true, s.digitsLegal_iff]
  omega

end Sys2Proof.Machine
end

