-- ==== Sys2Proof/Laws/PerInstr.lean ====
section
/-! SUPPORT. The family RoundTrip, per command: decoding a command's word gives the command back (R82, R85). -/
namespace Sys2Proof.Laws

/-- A well-formed command's word decodes to it. -/
def RoundTrip.Statement (i : Instr) : Prop := i.wf = true → decode (encode i) = i

theorem RoundTrip.hmac : RoundTrip.Statement .hmac := fun _ => by decide
theorem RoundTrip.trunc : RoundTrip.Statement .trunc := fun _ => by decide
theorem RoundTrip.hotp : RoundTrip.Statement .hotp := fun _ => by decide
theorem RoundTrip.cinc : RoundTrip.Statement .cinc := fun _ => by decide
theorem RoundTrip.totpc : RoundTrip.Statement .totpc := fun _ => by decide
theorem RoundTrip.verify : RoundTrip.Statement .verify := fun _ => by decide
theorem RoundTrip.illegal : RoundTrip.Statement .illegal := fun _ => by decide

end Sys2Proof.Laws
end

