-- ==== Sys2Proof/Laws/Run.lean ====
section
/-! SUPPORT. Runs of a machine, said once: a run is a first step and the run after it. -/
namespace Sys2Proof.Machine

/-- A run whose first step answers a next state goes on from it. -/
theorem run_succ_of_step {M : Host.Core} {n : Nat} {s t : M.State} (h : M.step s = .next t) :
    M.run (n + 1) s = M.run n t := by
  rw [Host.Core.run, h]

/-- A run that answers a next state made a first step that did. -/
theorem step_of_run_succ {M : Host.Core} {n : Nat} {s u : M.State} (h : M.run (n + 1) s = .next u) :
    ∃ t, M.step s = .next t ∧ M.run n t = .next u := by
  rw [Host.Core.run] at h
  cases hs : M.step s with
  | next t =>
    rw [hs] at h
    exact ⟨t, rfl, h⟩
  | fault f =>
    rw [hs] at h
    cases h
  | refused r =>
    rw [hs] at h
    cases h

/-- One step more at the end of a run. -/
theorem run_succ_last {M : Host.Core} {n : Nat} {s u : M.State} (h : M.run n s = .next u) :
    M.run (n + 1) s = M.step u := by
  induction n generalizing s with
  | zero =>
    have hs : s = u := by
      rw [Host.Core.run] at h
      cases h
      rfl
    subst hs
    rw [Host.Core.run]
    cases M.step s <;> rfl
  | succ n ih =>
    obtain ⟨t, hst, hr⟩ := step_of_run_succ h
    rw [run_succ_of_step hst]
    exact ih hr

end Sys2Proof.Machine
end

