-- ==== Sys2Proof/Laws/Sha1.lean ====
section
/-! SUPPORT. The lengths of SHA-1's lists and the words of a block (R102, R105, R108). -/
namespace Sys2Proof.Machine

@[simp] theorem shaExtend_length (n : Nat) (ws : List Word) : (shaExtend n ws).length = n + ws.length := by
  induction n generalizing ws with
  | zero => simp [shaExtend]
  | succ n ih =>
    rw [shaExtend, ih, List.length_cons]
    omega

@[simp] theorem shaWords_length (n : Nat) (b : List Byte) : (shaWords n b).length = n := by
  induction n generalizing b with
  | zero => rfl
  | succ n ih => simp [shaWords, ih]

/-- Word `t` of a block is its bytes 4t..4t+3 (R105). -/
theorem shaWords_getD {n t : Nat} (b : List Byte) (h : t < n) :
    (shaWords n b).getD t 0 = wordOfBytes ((b.drop (4 * t)).take 4) := by
  induction n generalizing b t with
  | zero => omega
  | succ n ih =>
    cases t with
    | zero => rfl
    | succ t =>
      rw [shaWords, List.getD_cons_succ, ih _ (by omega), List.drop_drop, Nat.mul_succ, Nat.add_comm]

@[simp] theorem shaSchedule_length (b : List Byte) : (shaSchedule b).length = 80 := by
  simp [shaSchedule]

theorem shaPad_length (m : List Byte) : (shaPad m).length = m.length + 1 + padZeros m.length + 8 := by
  simp [shaPad]
  omega

end Sys2Proof.Machine
end

