-- ==== Sys2Proof/Laws/Step.lean ====
section
/-! SUPPORT. One step said once: which moves there are and what each can change. -/
namespace Sys2Proof.Machine

/-- R64 as a proposition. -/
theorem wellFormed_access_iff (off bytes : Nat) :
    WellFormed.access off bytes = true ↔ bytes = 4 ∧ off % 4 = 0 ∧ off ≤ 0x1FC := by
  unfold WellFormed.access
  rw [Bool.and_eq_true, Bool.and_eq_true, beq_iff_eq, beq_iff_eq, decide_eq_true_iff]

/-- The access check (R60, R64): it passes exactly the accesses the block defines. -/
theorem checkAccess_ok_iff (addr bytes off : Nat) :
    checkAccess addr bytes = .ok off ↔ addr = Config.base + off ∧ WellFormed.access off bytes = true := by
  rw [wellFormed_access_iff]
  unfold checkAccess windowOffset
  rw [show windowEnd = 512 from rfl]
  by_cases hb : bytes = 4
  · rw [if_neg (not_not_intro hb)]
    by_cases hw : Config.base ≤ addr ∧ addr < Config.base + 512
    · rw [if_pos hw]
      by_cases ha : (addr - Config.base) % 4 = 0
      · simp only [ha, ne_eq, not_true_eq_false, if_false, Except.ok.injEq]
        omega
      · simp only [ha, ne_eq, not_false_eq_true, if_true, reduceCtorEq, false_iff]
        rintro ⟨h1, -, h2, -⟩
        subst h1
        rw [Nat.add_sub_cancel_left] at ha
        exact ha h2
    · rw [if_neg hw]
      simp only [reduceCtorEq, false_iff]
      omega
  · simp [hb]

/-- A defined access at a window offset. -/
theorem checkAccess_base_add {off : Nat} (h4 : off % 4 = 0) (hl : off < 0x200) :
    checkAccess (Config.base + off) 4 = .ok off := by
  rw [checkAccess_ok_iff, wellFormed_access_iff]
  omega

/-- `step` is the turn `nextTurn` on the state whose schedule has moved on. -/
theorem step_eq (s : State) : step s = takeTurn s.nextTurn { s with turns := s.turns.tail } := by
  unfold step State.nextTurn
  cases h : s.turns with
  | nil =>
    simp only [List.tail_nil]
    rw [← h]
  | cons t ts => rfl

/-- A host turn that answers a next state, said once. -/
theorem hostTurn_cases {s t : State} (h : hostTurn s = .next t) :
    (s.script = [] ∧ t = s) ∨
      (∃ rest, s.script = .poll :: rest ∧ t = hostPoll rest s) ∨
      (∃ off rest, s.script = .access (.read (Config.base + off) 4) :: rest ∧
        WellFormed.access off 4 = true ∧ t = { s with script := rest }.returnRead (memRead off s)) ∨
      ∃ off v rest, s.script = .access (.write (Config.base + off) 4 v) :: rest ∧
        WellFormed.access off 4 = true ∧ t = memWrite off v { s with script := rest } := by
  unfold hostTurn at h
  split at h
  · rename_i hs
    cases h
    exact .inl ⟨hs, rfl⟩
  · rename_i rest hs
    cases h
    exact .inr (.inl ⟨rest, hs, rfl⟩)
  · rename_i a rest hs
    have bytes4 : ∀ {off bytes : Nat}, WellFormed.access off bytes = true → bytes = 4 :=
      fun hw => ((wellFormed_access_iff _ _).mp hw).1
    cases a with
    | read addr bytes =>
      simp only [hostAccess] at h
      split at h
      · cases h
      · rename_i off hc
        cases h
        obtain ⟨rfl, hw⟩ := (checkAccess_ok_iff _ _ _).mp hc
        obtain rfl := bytes4 hw
        refine .inr (.inr (.inl ⟨off, rest, hs, hw, ?_⟩))
        unfold memRead
        cases regAt off <;> rfl
    | write addr bytes v =>
      simp only [hostAccess] at h
      split at h
      · cases h
      · rename_i off hc
        cases h
        obtain ⟨rfl, hw⟩ := (checkAccess_ok_iff _ _ _).mp hc
        obtain rfl := bytes4 hw
        exact .inr (.inr (.inr ⟨off, v, rest, hs, hw, rfl⟩))

/-- A step that answers a next state, said once: which move it is, and the state after it, with `s₁` the
state whose schedule has moved on. -/
theorem step_cases {s t : State} (h : step s = .next t) (s₁ : State)
    (hs₁ : s₁ = { s with turns := s.turns.tail }) :
    (s.nextTurn = .assertReset ∧ t = s₁.assertReset) ∨
      (s.nextTurn = .releaseReset ∧ t = s₁.releaseReset) ∨
      (s.resetIn = true ∧ t = s₁) ∨
      (s.resetIn = false ∧ s.nextTurn = .complete ∧ s.phase = .idle ∧ t = s₁) ∨
      (∃ i, s.completesNext i ∧ t = s₁.finish (commandOutcome i s₁)) ∨
      (s.resetIn = false ∧ s.nextTurn = .work ∧ t = workTurn s₁) ∨
      (s.resetIn = false ∧ s.nextTurn = .host ∧ hostTurn s₁ = .next t) := by
  rw [step_eq, ← hs₁] at h
  have hr : s₁.resetIn = s.resetIn := by rw [hs₁]
  have hp : s₁.phase = s.phase := by rw [hs₁]
  cases ht : s.nextTurn with
  | assertReset =>
    rw [ht] at h
    cases h
    exact .inl ⟨rfl, rfl⟩
  | releaseReset =>
    rw [ht] at h
    cases h
    exact .inr (.inl ⟨rfl, rfl⟩)
  | host =>
    rw [ht] at h
    simp only [takeTurn, hr] at h
    cases hres : s.resetIn with
    | true =>
      rw [hres] at h
      cases h
      exact .inr (.inr (.inl ⟨rfl, rfl⟩))
    | false =>
      rw [hres] at h
      exact .inr (.inr (.inr (.inr (.inr (.inr ⟨rfl, rfl, h⟩)))))
  | work =>
    rw [ht] at h
    simp only [takeTurn, hr] at h
    cases hres : s.resetIn with
    | true =>
      rw [hres] at h
      cases h
      exact .inr (.inr (.inl ⟨rfl, rfl⟩))
    | false =>
      rw [hres] at h
      cases h
      exact .inr (.inr (.inr (.inr (.inr (.inl ⟨rfl, rfl, rfl⟩)))))
  | complete =>
    rw [ht] at h
    simp only [takeTurn, hr] at h
    cases hres : s.resetIn with
    | true =>
      rw [hres] at h
      cases h
      exact .inr (.inr (.inl ⟨rfl, rfl⟩))
    | false =>
      rw [hres] at h
      simp only [completeTurn, hp, Bool.false_eq_true, if_false] at h
      cases hph : s.phase with
      | idle =>
        rw [hph] at h
        cases h
        exact .inr (.inr (.inr (.inl ⟨rfl, rfl, rfl, rfl⟩)))
      | running i =>
        rw [hph] at h
        exact .inr (.inr (.inr (.inr (.inl ⟨i, ⟨ht, hres, hph⟩, exec_next h⟩))))

end Sys2Proof.Machine
end

