-- ==== Sys2Proof/Laws/Truncation.lean ====
section
/-! SUPPORT. Truncation on integers (R131, R134): what the bit operations compute. -/
namespace Sys2Proof.Machine

theorem wordOfBytes_four_toNat (a b c d : Byte) : (wordOfBytes [a, b, c, d]).toNat = fromBe [a, b, c, d] := by
  rw [wordOfBytes, BitVec.toNat_ofNat, Nat.mod_eq_of_lt (fromBe_four_lt a b c d)]

/-- The four bytes from `o` on. -/
theorem take_four_drop {l : List Byte} {o : Nat} (h : o + 4 ≤ l.length) :
    (l.drop o).take 4 = [l.getD o 0, l.getD (o + 1) 0, l.getD (o + 2) 0, l.getD (o + 3) 0] := by
  apply List.ext_getElem
  · simp
    omega
  · intro i h1 h2
    have : i < 4 := by simpa using h2
    interval_cases i <;> simp <;> rw [List.getElem?_eq_getElem (by omega)] <;> simp

/-- Masking with 0x7FFFFFFF is the remainder modulo 2^31 (R131). -/
theorem and_mask31_toNat (w : Word) : (w &&& 0x7FFFFFFF).toNat = w.toNat % 2 ^ 31 := by
  rw [BitVec.toNat_and]
  exact Nat.and_two_pow_sub_one_eq_mod w.toNat 31

theorem truncOffset_toNat (hs : List Byte) : (truncOffset hs).toNat = (hs.getD 19 0).toNat % 16 := by
  simp [truncOffset]

/-- SNUM as an integer: P mod 2^31. -/
theorem truncate_snum_toNat (hs : List Byte) (d : Nat) :
    (truncate hs d).snum.toNat = (truncWindow hs).toNat % 2 ^ 31 := by
  show ((truncWindow hs &&& 0x7FFFFFFF).setWidth 31).toNat = _
  rw [BitVec.toNat_setWidth, and_mask31_toNat]
  simp

/-- The code is SNUM mod 10^d (R131, R42). -/
theorem truncate_code (hs : List Byte) (d : Nat) :
    (truncate hs d).code = (truncate hs d).snum.toNat % 10 ^ d := by
  rw [truncate_snum_toNat]
  show (truncWindow hs &&& 0x7FFFFFFF).toNat % 10 ^ d = _
  rw [and_mask31_toNat]

/-- Neither the offset nor SNUM depends on the digit count. -/
theorem truncate_snum_digits (hs : List Byte) (d d' : Nat) :
    (truncate hs d).offset = (truncate hs d').offset ∧ (truncate hs d).snum = (truncate hs d').snum :=
  ⟨rfl, rfl⟩

/-- The window of a 20-byte digest is the four bytes at the offset. -/
theorem truncWindow_toNat {hs : List Byte} (hl : hs.length = 20) {o : Nat}
    (ho : o = (hs.getD 19 0).toNat % 16) :
    (truncWindow hs).toNat =
      fromBe [hs.getD o 0, hs.getD (o + 1) 0, hs.getD (o + 2) 0, hs.getD (o + 3) 0] := by
  rw [truncWindow, truncOffset_toNat, ← ho, take_four_drop (by omega), wordOfBytes_four_toNat]

end Sys2Proof.Machine
end

