-- ==== Sys2Proof/Laws/Verify.lean ====
section
/-! SUPPORT. The search of R182 said once: it finds the first match of the window, or none (R183, R187, R188). -/
namespace Sys2Proof.Machine

theorem inCodeRange_iff (v : Nat) : inCodeRange v = true ↔ 100000 ≤ v ∧ v ≤ 99999999 := decide_eq_true_iff

theorem inCodeRange_eq_false {v : Nat} (h : v < 100000 ∨ 99999999 < v) : inCodeRange v = false := by
  rw [← Bool.not_eq_true, inCodeRange_iff]
  omega

/-- The k-th counter after the next one is the (k+1)-th (R150, R183). -/
theorem counterNext_add (c : Dword) (k : Nat) :
    counterNext c + BitVec.ofNat 64 k = c + BitVec.ofNat 64 (k + 1) := by
  apply BitVec.eq_of_toNat_eq
  have h1 : (1 : Dword).toNat = 1 := rfl
  simp only [counterNext, BitVec.toNat_add, BitVec.toNat_ofNat, h1]
  omega

/-- The search stops at the first match of its `rem` counters. -/
theorem verifySearch_first {key : List Byte} {d sub th rem k : Nat} {ctr : Dword} (hk : k < rem)
    (hm : hotpCode key (ctr + BitVec.ofNat 64 k) d = sub)
    (hj : ∀ j, j < k → hotpCode key (ctr + BitVec.ofNat 64 j) d ≠ sub) :
    verifySearch key d sub th rem ctr =
      .complete { sync := some (BitVec.ofNat 16 (th - (rem - k)), ctr + BitVec.ofNat 64 k) } := by
  induction rem generalizing ctr k with
  | zero => omega
  | succ rem ih =>
    cases k with
    | zero =>
      have h0 : ctr + BitVec.ofNat 64 0 = ctr := by simp
      rw [h0] at hm ⊢
      rw [verifySearch, if_pos hm, Nat.sub_zero]
    | succ k =>
      have h0 : hotpCode key ctr d ≠ sub := by
        have := hj 0 (by omega)
        rwa [show ctr + BitVec.ofNat 64 0 = ctr by simp] at this
      rw [verifySearch, if_neg h0, ih (k := k) (by omega), counterNext_add,
        show rem + 1 - (k + 1) = rem - k by omega]
      · rw [counterNext_add]
        exact hm
      · intro j hjk
        rw [counterNext_add]
        exact hj (j + 1) (by omega)

/-- The search fails when none of its `rem` counters matches. -/
theorem verifySearch_none {key : List Byte} {d sub th rem : Nat} {ctr : Dword}
    (hj : ∀ j, j < rem → hotpCode key (ctr + BitVec.ofNat 64 j) d ≠ sub) :
    verifySearch key d sub th rem ctr = .error .invalidThreshold := by
  induction rem generalizing ctr with
  | zero => rfl
  | succ rem ih =>
    have h0 : hotpCode key ctr d ≠ sub := by
      have := hj 0 (by omega)
      rwa [show ctr + BitVec.ofNat 64 0 = ctr by simp] at this
    rw [verifySearch, if_neg h0]
    apply ih
    intro j hjr
    rw [counterNext_add]
    exact hj (j + 1) (by omega)

/-- Either no counter below `n` matches, or there is a first one. -/
theorem first_match_or_none (p : Nat → Prop) (n : Nat) :
    (∀ j, j < n → ¬ p j) ∨ ∃ k, k < n ∧ p k ∧ ∀ j, j < k → ¬ p j := by
  classical
  induction n with
  | zero => exact .inl (by intro j hj; omega)
  | succ n ih =>
    rcases ih with h | ⟨k, hk, hp, hj⟩
    · by_cases hn : p n
      · exact .inr ⟨n, by omega, hn, h⟩
      · refine .inl fun j hj => ?_
        rcases Nat.lt_succ_iff_lt_or_eq.mp hj with hlt | rfl
        · exact h j hlt
        · exact hn
    · exact .inr ⟨k, by omega, hp, hj⟩

/-- VERIFY's outcome once its checks have passed. -/
theorem State.verifyOutcome_search {s : State} (hk : s.keyLen.toNat ≤ 128) (h1 : 100000 ≤ s.submitted.toNat)
    (h2 : s.submitted.toNat ≤ 99999999) :
    s.verifyOutcome =
      verifySearch s.keyBytes (ndigits s.submitted.toNat) s.submitted.toNat s.threshold.toNat
        s.threshold.toNat s.counter := by
  unfold State.verifyOutcome
  rw [State.keyTooLong_eq_false hk, (inCodeRange_iff _).mpr ⟨h1, h2⟩]
  rfl

/-! ### The transitions of R181 -/

theorem State.verifyStep_attempt_zero (s : State) (ctr : Dword) (d : Nat) :
    s.verifyStep (.attempt ctr 0 d) = .doneErr .invalidThreshold := rfl

theorem State.verifyStep_attempt_match {s : State} {ctr : Dword} {rem : BitVec 16} {d : Nat} (hr : rem ≠ 0)
    (h : hotpCode s.keyBytes ctr d = s.submitted.toNat) :
    s.verifyStep (.attempt ctr rem d) = .doneOk (s.threshold - rem) ctr := by
  rw [State.verifyStep, if_neg hr, if_pos h]

theorem State.verifyStep_attempt_next {s : State} {ctr : Dword} {rem : BitVec 16} {d : Nat} (hr : rem ≠ 0)
    (h : hotpCode s.keyBytes ctr d ≠ s.submitted.toNat) :
    s.verifyStep (.attempt ctr rem d) = .attempt (counterNext ctr) (rem - 1) d := by
  rw [State.verifyStep, if_neg hr, if_neg h]

theorem State.verifySteps_add (s : State) (n m : Nat) (it : VerifyIter) :
    s.verifySteps (n + m) it = s.verifySteps m (s.verifySteps n it) := by
  induction n generalizing it with
  | zero => rw [Nat.zero_add]; rfl
  | succ n ih => rw [Nat.succ_add]; exact ih _

/-- A final state of R181 stays as it is. -/
theorem State.verifySteps_final (s : State) (n : Nat) {it : VerifyIter} {o : CmdOutcome}
    (h : it.outcome = some o) : s.verifySteps n it = it := by
  induction n with
  | zero => rfl
  | succ n ih =>
    have hs : s.verifyStep it = it := by
      cases it <;> first | rfl | cases h
    rw [State.verifySteps, hs, ih]

end Sys2Proof.Machine
end

