-- ==== Sys2Proof/Tests/Slice0.lean ====
section
/-! SUPPORT. The model's own tests: ill-formed terms refused, words decoded, one step per command against the
vectors of spec/95_test_vectors.md, and for every obligation with hypotheses a witness that meets them. -/
namespace Sys2Proof.Tests
open Sys2Proof Sys2Proof.Machine

/-! ### Well-formedness: one ill-formed term for each check -/

theorem test_wf_word_rsv : WellFormed.commandWord 0x00000011 = false := by decide
theorem test_wf_word_op_zero : WellFormed.commandWord 0x00000000 = false := by decide
theorem test_wf_word_op_above : WellFormed.commandWord 0x00000007 = false := by decide
theorem test_wf_access_width : WellFormed.access 0x000 2 = false := by decide
theorem test_wf_access_alignment : WellFormed.access 0x1FA 4 = false := by decide
theorem test_wf_access_window : WellFormed.access 0x200 4 = false := by decide
theorem test_wf_accepts : WellFormed.commandWord 6 = true ∧ WellFormed.access 0x1FC 4 = true := by decide

/-! ### Decoding: each command's word, RSV in bits 31:4 and OP in bits 3:0 (R80, R82) -/

theorem test_decode_hmac : decode (0b0000000000000000000000000000#28 ++ 0b0001#4) = .hmac := by decide
theorem test_decode_trunc : decode (0b0000000000000000000000000000#28 ++ 0b0010#4) = .trunc := by decide
theorem test_decode_hotp : decode (0b0000000000000000000000000000#28 ++ 0b0011#4) = .hotp := by decide
theorem test_decode_cinc : decode (0b0000000000000000000000000000#28 ++ 0b0100#4) = .cinc := by decide
theorem test_decode_totpc : decode (0b0000000000000000000000000000#28 ++ 0b0101#4) = .totpc := by decide
theorem test_decode_verify : decode (0b0000000000000000000000000000#28 ++ 0b0110#4) = .verify := by decide
theorem test_decode_illegal_op : decode (0b0000000000000000000000000000#28 ++ 0b1111#4) = .illegal := by decide
theorem test_decode_illegal_rsv : decode (0b1000000000000000000000000000#28 ++ 0b0011#4) = .illegal := by decide
theorem test_decode_table_word : decodeTableWord 32 0x00000004 = some .cinc := by decide

/-! ### Small states -/

/-- A buffer holding a byte string without zero bytes. -/
def cells (base : Nat) (b : List Byte) : List Host.Cell := b.zipIdx.map fun p => (base + p.2, p.1)

/-- K20, the ASCII bytes "12345678901234567890" (95, section 1). -/
def k20 : List Byte :=
  [0x31, 0x32, 0x33, 0x34, 0x35, 0x36, 0x37, 0x38, 0x39, 0x30] ++
  [0x31, 0x32, 0x33, 0x34, 0x35, 0x36, 0x37, 0x38, 0x39, 0x30]

/-- The block right after reset, with K20 loaded. -/
def keyed : State := { State.reset with mem := cells keyBase k20 }

/-- V-HMAC-2: key "Jefe", message "what do ya want for nothing?". -/
def jefe : State :=
  { State.reset with
    keyLen := 4, msgLen := 28
    mem := cells keyBase [0x4A, 0x65, 0x66, 0x65] ++
      (cells msgBase
        [0x77, 0x68, 0x61, 0x74, 0x20, 0x64, 0x6F, 0x20, 0x79, 0x61, 0x20, 0x77, 0x61, 0x6E] ++
      cells (msgBase + 14)
        [0x74, 0x20, 0x66, 0x6F, 0x72, 0x20, 0x6E, 0x6F, 0x74, 0x68, 0x69, 0x6E, 0x67, 0x3F]) }

/-- The digest of V-TRUNC-1. -/
def digestT1 : Digest := ⟨0x1f869869, 0x0e02ca16, 0x618550ef, 0x7f19da8e, 0x945b555a⟩

/-- A state of the state after a step, or none where the step stops. -/
def stateOf : Host.Outcome State Fault Refusal → Option State
  | .next s => some s
  | .fault _ => none
  | .refused _ => none

/-- The state after the command word `w`, placed and run on `s` by the next step. -/
def afterWord (w : Nat) (s : State) : Option State := stateOf (step (s.withFetchWord 32 w))

/-! ### One step per command (expected values: 95_test_vectors.md, sections 2.1 to 2.8) -/

/-- V-SHA-2. -/
theorem test_sha1_abc :
    sha1 [0x61, 0x62, 0x63] = ⟨0xa9993e36, 0x4706816a, 0xba3e2571, 0x7850c26c, 0x9cd0d89d⟩ := by decide +kernel

/-- V-HMAC-2. -/
theorem test_hmac_jefe : (afterWord 1 jefe).map (fun t => (t.digest, t.statusWord)) =
    some (⟨0xeffcdf6a, 0xe5eb2fa2, 0xd27416d5, 0xf184df9c, 0x259a7c79⟩, 0x00000102) := by decide +kernel

/-- V-HMAC-14. -/
theorem test_hmac_key_length : (afterWord 1 { keyed with keyLen := 129 }).map State.statusWord =
    some 0x00000152 := by decide

/-- V-TRUNC-1. -/
theorem test_trunc_t1 :
    (afterWord 2 { State.reset with digest := digestT1 }).map (fun t => (t.offset, t.snum, t.code)) =
      some (10, 1357872921, 872921) := by decide

/-- V-TRUNC-15. -/
theorem test_trunc_digits : (afterWord 2 { State.reset with digits := 9 }).map State.statusWord =
    some 0x00000212 := by decide

/-- V-HOTP-1. -/
theorem test_hotp_1 :
    (afterWord 3 { keyed with counter := 1 }).map (fun t => (t.digest, t.snum, t.code)) =
      some (⟨0x75a48a19, 0xd4cbe100, 0x644e8ac1, 0x397eea74, 0x7a2d33ab⟩, 1094287082, 287082) := by decide +kernel

/-- R137, the order of the checks: LENGTH_RANGE wins over INVALID_DIGIT_COUNT. -/
theorem test_hotp_order : (afterWord 3 { keyed with keyLen := 129, digits := 9 }).map (·.err) =
    some 5 := by decide

/-- V-CINC-3. -/
theorem test_cinc_carry : (afterWord 4 { State.reset with counter := 0x00000000FFFFFFFF }).map (·.counter) =
    some 0x0000000100000000 := by decide

/-- V-CINC-6. -/
theorem test_cinc_wrap : (afterWord 4 { State.reset with counter := 0xFFFFFFFFFFFFFFFF }).map
    (fun t => (t.counter, t.err)) = some (0, 0) := by decide

/-- V-TOTP-1. -/
theorem test_totpc_underflow : (afterWord 5 { State.reset with now := 59 }).map State.statusWord =
    some 0x00000532 := by decide

/-- V-TOTP-12. -/
theorem test_totpc_value : (afterWord 5 { State.reset with now := 1111111111 }).map (·.counter) =
    some 37037035 := by decide

/-- V-VER-2. -/
theorem test_verify_2 : (afterWord 6 { keyed with submitted := 287082 }).map
    (fun t => (t.vsteps, t.vctr, t.err)) = some (1, 1, 0) := by decide +kernel

/-- V-VER-11: the window wraps. -/
theorem test_verify_wrap : (afterWord 6 { keyed with submitted := 755224, counter := 0xFFFFFFFFFFFFFFFF }).map
    (fun t => (t.vsteps, t.vctr, t.err)) = some (1, 0, 0) := by decide +kernel

/-- V-REG-3. -/
theorem test_illegal_7 : (afterWord 7 State.reset).map State.statusWord = some 0x00000762 := by decide

/-! ### Witnesses: the bus and the register map -/

/-- The last word of the window is an access; the next address, a misaligned one and a halfword are none. -/
theorem test_witness_access_bounds :
    checkAccess (Config.base + 0x1FC) 4 = .ok 0x1FC ∧ checkAccess (Config.base + 0x000) 4 = .ok 0x000 ∧
    checkAccess (Config.base + 0x200) 4 = .error .outsideWindow ∧
    checkAccess (Config.base + 0x1FE) 4 = .error .misaligned ∧
    checkAccess (Config.base + 0x1FC) 2 = .error .accessWidth := by
  refine ⟨checkAccess_base_add (by decide) (by decide), checkAccess_base_add (by decide) (by decide), ?_, ?_, ?_⟩
  · simp [checkAccess, windowOffset]
  · simp [checkAccess, windowOffset, show windowEnd = 512 from rfl]
  · simp [checkAccess]

theorem test_witness_reset_column : (0 < 0x200 ∧ 0 % 4 = 0) ∧ (0x1FC < 0x200 ∧ 0x1FC % 4 = 0) := by decide

/-- A host about to read the word at `off`. -/
def reading (off : Nat) : State :=
  { State.reset with phase := .running .hmac, script := [.access (.read (Config.base + off) 4)] }

theorem test_witness_read (off : Nat) :
    (reading off).script = .access (.read (Config.base + off) 4) :: [] ∧ (reading off).busy = true := ⟨rfl, rfl⟩

theorem test_witness_read_bounds : (0 % 4 = 0 ∧ 0 ≤ 0x1FC) ∧ (0x1FC % 4 = 0 ∧ 0x1FC ≤ 0x1FC) := by decide

theorem test_witness_reserved_bounds :
    (0x080 % 4 = 0 ∧ 0x080 ≤ 0x080 ∧ 0x080 ≤ 0x0FC) ∧ (0x0FC % 4 = 0 ∧ 0x080 ≤ 0x0FC ∧ 0x0FC ≤ 0x0FC) ∧
    regAt 0x048 = .reserved ∧ regAt 0x04C = .reserved ∧ regAt 0x074 = .reserved ∧
    regAt 0x080 = .reserved ∧ regAt 0x0FC = .reserved := by decide

/-- For WritableRegistersReadBack, WriteLeavesOtherRegisters, HalvesAreIndependent and the windows. -/
theorem test_witness_idle_write :
    Memory.wf keyed.mem = true ∧ keyed.busy = false ∧ Reg.access (.msg 31) = .rw ∧ Reg.access .digits = .rw ∧
    Reg.keyLen ≠ .cmd ∧ Reg.keyLen ≠ Reg.msgLen ∧ Reg.key 0 ≠ Reg.msg 31 := by decide

/-- A busy block. -/
def running (i : Instr) : State := { keyed with phase := .running i }

/-- For CollisionFlagIsSticky: a WO and an RW register on a busy block, and an idle one. -/
theorem test_witness_collision :
    (running .hotp).busy = true ∧ (regAt 0x004).access = .wo ∧ (regAt 0x00C).access = .rw ∧
    keyed.busy = false ∧ ∃ t, exec .cinc (running .cinc) = .next t := ⟨rfl, rfl, rfl, rfl, _, rfl⟩

/-- For BusyDropsWrites: both ends of each range are offsets of the kind the clause says. -/
theorem test_witness_busy_ranges :
    ([0x004, 0x00C, 0x044, 0x050, 0x060, 0x100, 0x1FC].all fun o => (regAt o).dropsWhileBusy) = true ∧
    ([0x000, 0x048, 0x04C, 0x064, 0x0FC].all fun o => !(regAt o).dropsWhileBusy) = true ∧
    (regAt 0x008).dropsWhileBusy = false := by decide

/-- For KeyWindowHoldsTheKey: the first and the last word, and a buffer that differs at KEY_LEN only. -/
theorem test_witness_key_window :
    (0 < 32 ∧ 31 < 32) ∧ (∃ t, exec .hmac keyed = .next t) ∧
    (∀ n, n < State.reset.keyLen.toNat →
      Memory.read [(0x114, 1)] (0x100 + n) = Memory.read State.reset.mem (0x100 + n)) ∧
    ∀ n, Memory.read [(0x114, 1)] (0x180 + n) = Memory.read State.reset.mem (0x180 + n) := by
  refine ⟨by decide, ⟨_, rfl⟩, by decide, fun n => ?_⟩
  rw [Memory.read_cons, if_neg (by omega)]
  rfl

/-- For MsgWindowHoldsTheMessage: a buffer that differs in MSG only, at MSG_LEN for HMAC. -/
theorem test_witness_msg_window :
    (∀ n, n < 128 → Memory.read [(0x181, 1)] (0x100 + n) = Memory.read State.reset.mem (0x100 + n)) ∧
    (∀ n, n < ({ State.reset with msgLen := 1 } : State).msgLen.toNat →
      Memory.read [(0x181, 1)] (0x180 + n) = Memory.read State.reset.mem (0x180 + n)) ∧
    Instr.hotp ≠ .hmac := by
  refine ⟨fun n hn => ?_, by decide, by decide⟩
  rw [Memory.read_cons, if_neg (by omega)]
  rfl

/-- For KeyBytesNeverReadBack: a buffer that differs in the last KEY byte only. -/
theorem test_witness_key_unreadable :
    ∀ a, 0x180 ≤ a → Memory.read [(0x17F, 5)] a = Memory.read State.reset.mem a := by
  intro a ha
  rw [Memory.read_cons, if_neg (by omega)]
  rfl

/-! ### Witnesses: reset, schedule and lifecycle -/

theorem test_witness_reset_abort :
    ({ running .verify with turns := [.assertReset] } : State).turns = .assertReset :: [] := rfl

theorem test_witness_reset_held :
    ({ State.reset with resetIn := true, turns := [.work] } : State).resetIn = true ∧
    ({ State.reset with resetIn := true, turns := [.work] } : State).turns = .work :: [] ∧
    ({ running .hmac with resetIn := true } : State).resetIn = true ∧
    ({ running .hmac with resetIn := true } : State).turns = [] := ⟨rfl, rfl, rfl, rfl⟩

/-- For StepKeepsRegisterInvariant: a running command that the next step completes. -/
theorem test_witness_register_invariant :
    ({ running .cinc with lastOp := 4 } : State).Inv ∧
      ∃ t, step { running .cinc with lastOp := 4 } = .next t := by
  refine ⟨⟨by decide, by decide, fun _ => rfl, fun _ => rfl, fun i hi _ => ?_, 6, by decide, by decide⟩, _, rfl⟩
  cases hi
  rfl

/-- For StepKeepsIterationInvariant: a VERIFY in CHECK_KEY that the next step moves on. -/
theorem test_witness_iteration_invariant :
    ({ running .verify with iter := some .checkKey, turns := [.work] } : State).IterInv ∧
      ∃ t, step { running .verify with iter := some .checkKey, turns := [.work] } = .next t := by
  refine ⟨⟨by simp [running], fun it hi => ?_⟩, _, rfl⟩
  cases hi
  trivial

theorem test_witness_encode :
    Instr.verify.wf = true ∧ WellFormed.commandWord 1 = true ∧ WellFormed.commandWord 6 = true := by decide

theorem test_witness_cmd_write : (running .hmac).busy = true ∧ keyed.busy = false := by decide

/-- For StepRunsTheDecodedCommand: a scheduled and an unscheduled completion, a pending CMD write, a word. -/
theorem test_witness_step :
    ({ running .cinc with turns := [.complete] } : State).turns = .complete :: [] ∧
    (running .cinc).turns = [] ∧ (running .cinc).resetIn = false ∧ (running .cinc).phase = .running .cinc ∧
    ({ keyed with turns := [.host], script := [.access (.write (Config.base + 0x004) 4 6)] } : State).script =
      .access (.write (Config.base + 0x004) 4 6) :: [] ∧
    (0 < 2 ^ 32 ∧ 2 ^ 32 - 1 < 2 ^ 32) := by
  refine ⟨rfl, rfl, rfl, rfl, rfl, by decide⟩

/-- For CompletionWritesOutcome and ErrorsArePrecise. -/
theorem test_witness_completion :
    commandOutcome .cinc keyed = .complete { counter := some 1 } ∧
    commandOutcome .hmac { keyed with keyLen := 129 } = .error .lengthRange ∧
    ∃ t, exec .illegal keyed = .next t ∧ t.err ≠ 0 := ⟨by decide, by decide, _, rfl, by decide⟩

/-- For ErrorCodesByPriority, CommandsWriteOnlyTheirResults and VerifyHmacWork: every command completes, and the
premises on SUBMITTED and KEY_LEN can each be met at their bounds. -/
theorem test_witness_outcomes :
    (∀ i : Instr, ∃ t, exec i keyed = .next t) ∧
    (128 < (129 : BitVec 8).toNat ∧ (128 : BitVec 8).toNat ≤ 128) ∧
    ((99999 : Word).toNat < 100000 ∧ 99999999 < (100000000 : Word).toNat ∧
      100000 ≤ (100000 : Word).toNat ∧ (99999999 : Word).toNat ≤ 99999999) :=
  ⟨fun i => by cases i <;> exact ⟨_, rfl⟩, by decide, by decide⟩

/-- For OutcomesDependOnlyOnOperands: states that differ outside TRUNC's operands. -/
theorem test_witness_operands :
    sameOperands .trunc keyed { State.reset with counter := 7 } ∧ keyed.counter ≠ 7 := ⟨⟨rfl, rfl⟩, by decide⟩

/-! ### Witnesses: the commands -/

theorem test_witness_hmac :
    ({ jefe with keyLen := 128, msgLen := 128 } : State).keyLen.toNat ≤ 128 ∧
    ({ jefe with keyLen := 128, msgLen := 128 } : State).msgLen.toNat ≤ 128 ∧
    128 < ({ jefe with keyLen := 129 } : State).keyLen.toNat ∧
    128 < ({ jefe with msgLen := 129 } : State).msgLen.toNat := by decide

/-- The operands of V-TRUNC-1 as integers, and a digit count on each side of 6..8. -/
theorem test_witness_trunc :
    (State.reset.digits.toNat = 6 ∧ 10 = (digestT1.bytes.getD 19 0).toNat % 16 ∧
      1357872921 = ((((digestT1.bytes.getD 10 0).toNat * 256 + (digestT1.bytes.getD 11 0).toNat) * 256 +
        (digestT1.bytes.getD 12 0).toNat) * 256 + (digestT1.bytes.getD 13 0).toNat) % 2 ^ 31) ∧
    ((5 : BitVec 4).toNat ≠ 6 ∧ (5 : BitVec 4).toNat ≠ 7 ∧ (5 : BitVec 4).toNat ≠ 8) ∧
    ((9 : BitVec 4).toNat ≠ 6 ∧ (9 : BitVec 4).toNat ≠ 7 ∧ (9 : BitVec 4).toNat ≠ 8) := by decide

/-- The operands of V-HOTP-1: its 8-byte message, the digest and the four bytes at the offset, and KEY_LEN = 129. -/
theorem test_witness_hotp :
    keyed.keyLen.toNat ≤ 128 ∧ keyed.digits.toNat = 6 ∧
    (∀ i, i < 8 → ([0, 0, 0, 0, 0, 0, 0, 1] : List Byte).getD i 0 = (1 : Dword).extractLsb' (56 - 8 * i) 8) ∧
    hmacSha1 keyed.keyBytes [0, 0, 0, 0, 0, 0, 0, 1] =
      ⟨0x75a48a19, 0xd4cbe100, 0x644e8ac1, 0x397eea74, 0x7a2d33ab⟩ ∧
    11 = (0xab : Byte).toNat % 16 ∧
    1094287082 = (((0xc1 * 256 + 0x39) * 256 + 0x7e) * 256 + 0xea) % 2 ^ 31 ∧
    128 < ({ keyed with keyLen := 129 } : State).keyLen.toNat := by decide +kernel

theorem test_witness_totpc :
    ({ State.reset with period := 0 } : State).period = 0 ∧ State.reset.period ≠ 0 ∧
    (99 : Dword).toNat < (100 : Dword).toNat ∧
    (State.reset.t0.toNat ≤ (60 : Dword).toNat ∧ 2 = ((60 : Dword).toNat - 0) / State.reset.period.toNat ∧
      State.reset.drift.toNat ≤ 2) ∧
    (1 = ((59 : Dword).toNat - 0) / State.reset.period.toNat ∧ 1 < State.reset.drift.toNat) ∧
    ∃ t, exec .totpc State.reset = .next t := ⟨by decide, by decide, by decide, by decide, by decide, _, rfl⟩

/-- For VerifySearchesForward and VerifyAcceptsGeneratedCode, V-VER-2's operands: counter 1 is the first match of
the window, and it is a 6-digit code. -/
theorem test_witness_verify :
    keyed.keyLen.toNat ≤ 128 ∧ 1 < keyed.threshold.toNat ∧ ndigits 287082 = 6 ∧
    hotpCode keyed.keyBytes (keyed.counter + BitVec.ofNat 64 1) 6 = 287082 ∧
    ∀ j, j < 1 → hotpCode keyed.keyBytes (keyed.counter + BitVec.ofNat 64 j) 6 ≠ 287082 := by decide +kernel

/-- No counter of a window of one matches 287082; a window of none never matches. -/
theorem test_witness_verify_none :
    (∀ k, k < 1 → hotpCode keyed.keyBytes (keyed.counter + BitVec.ofNat 64 k) (ndigits 287082) ≠ 287082) ∧
    (∀ k, k < 0 → hotpCode keyed.keyBytes (keyed.counter + BitVec.ofNat 64 k) (ndigits 287082) ≠ 287082) := by decide +kernel

/-- For IllegalWordCompletesWithCode: RSV not 0, OP 0, OP at both ends of 7..15. -/
theorem test_witness_illegal :
    (0x10 : Word).extractLsb' 4 28 ≠ 0 ∧ (0x0 : Word).extractLsb' 0 4 = 0 ∧
    7 ≤ ((0x7 : Word).extractLsb' 0 4).toNat ∧ 7 ≤ ((0xF : Word).extractLsb' 0 4).toNat ∧
    keyed.busy = false := by decide

/-! ### Witnesses: primitives -/

theorem test_witness_schedule : (List.replicate 64 (0 : Byte)).length = 64 ∧ 0 < 16 ∧ 15 < 16 ∧
    (16 ≤ 16 ∧ 16 < 80) ∧ (16 ≤ 79 ∧ 79 < 80) := by decide

/-- For ShaCompressionRounds: both ends of each range of rounds; for DigestBytesBigEndian: the last byte of a word;
for ShaPaddingFillsBlocks: the last block of a message of 56 bytes. -/
theorem test_witness_rounds :
    19 ≤ 19 ∧ (20 ≤ 20 ∧ 39 ≤ 39) ∧ (40 ≤ 40 ∧ 59 ≤ 59) ∧ (60 ≤ 60 ∧ 79 ≤ 79) ∧ 3 < 4 ∧
    shaBlockCount 55 = 1 ∧ shaBlockCount 56 = 2 ∧ 1 < shaBlockCount 56 := by decide

/-- For HmacComputesMac and ShaCompressionRounds: the longest message, and the rotations of a round. -/
theorem test_witness_mac_lengths :
    (List.replicate 128 (0 : Byte)).length ≤ 128 ∧ shaBlockCount 192 = 4 ∧ shaBlockCount 84 = 2 ∧
    (1 < 32 ∧ 31 < 32) ∧ rotl 1 0x80000001 = 0x00000003 := by
  refine ⟨by simp, by decide⟩

/-- For HmacKeyPreparation and HmacCompressionCounts: the lengths on both sides of each bound. -/
theorem test_witness_key_lengths :
    (List.replicate 64 (0 : Byte)).length ≤ 64 ∧ 64 < (List.replicate 65 (0 : Byte)).length ∧
    (0 ≤ 64 ∧ 64 ≤ 64) ∧ (65 ≤ 65 ∧ 119 ≤ 119) ∧ (120 ≤ 120 ∧ 128 ≤ 128) := by decide

/-- For TruncationFacts: two digests that differ outside the selected bytes, and d' = 6 ≤ d = 8. -/
theorem test_witness_truncation :
    (6 ≤ 6 ∧ 6 ≤ 8) ∧ (truncate digestT1.bytes 7).code < 10 ^ 8 ∧
    10 = (digestT1.bytes.getD 19 0).toNat % 16 ∧
    10 = (({ digestT1 with w0 := 0 } : Digest).bytes.getD 19 0).toNat % 16 ∧
    ∀ j, j < 4 →
      digestT1.bytes.getD (10 + j) 0 = ({ digestT1 with w0 := 0 } : Digest).bytes.getD (10 + j) 0 := by decide

/-- For HotpIsHmacThenTrunc: MSG holds `be_8(COUNTER)`. -/
theorem test_witness_hotp_chain :
    ({ keyed with msgLen := 8 } : State).digitsLegal = true ∧
    (∀ i, i < 8 → Memory.read keyed.mem (0x180 + i) = keyed.counter.extractLsb' (56 - 8 * i) 8) ∧
    ∃ h t, exec .hmac { keyed with msgLen := 8 } = .next h ∧ exec .trunc h = .next t :=
  ⟨by decide, by decide, _, _, rfl, rfl⟩

theorem test_witness_digit_count :
    (1 ≤ 1 ∧ 1 < 10 ^ 1) ∧ (100000 ≤ 100000 ∧ 999999 ≤ 999999) ∧ (1000000 ≤ 1000000 ∧ 9999999 ≤ 9999999) ∧
    (10000000 ≤ 10000000 ∧ 99999999 ≤ 99999999) := by decide

/-- For DriftWindowCoverage, at NOW = 150 with the reset values and THRESHOLD = 15: each bound of each clause. -/
theorem test_witness_drift :
    totpCounter 30 0 2 150 = .ok 3 ∧ 5 = (150 - 0) / 30 ∧ (2 + 1 ≤ 15 ∧ 360 ≤ 30 * (15 - 2 - 1)) ∧
    30 * (15 - 2) ≤ 390 ∧ (0 + 60 ≤ 150 ∧ 60 ≤ 30 * 2) ∧ (0 + 90 ≤ 150 ∧ 30 * (2 + 1) ≤ 90) := by decide

/-- For VerifyTransitionTable: a state and operands for each row, and a work turn. -/
theorem test_witness_transitions :
    128 < ({ keyed with keyLen := 129 } : State).keyLen.toNat ∧ keyed.keyLen.toNat ≤ 128 ∧
    keyed.submitted.toNat < 100000 ∧ 100000 ≤ ({ keyed with submitted := 287082 } : State).submitted.toNat ∧
    (1 : BitVec 16) ≠ 0 ∧ hotpCode keyed.keyBytes 1 6 = 287082 ∧ hotpCode keyed.keyBytes 0 6 ≠ 287082 ∧
    ({ running .verify with iter := some .checkKey, turns := [.work] } : State).nextTurn = .work ∧
    ∃ t, step { running .verify with iter := some .checkKey, turns := [.work] } = .next t ∧
      t.iter = some .checkRange := by
  refine ⟨by decide, by decide, by decide, by decide, by decide, by decide +kernel, by decide +kernel, rfl, _, rfl, by decide⟩

/-! ### Witnesses: whole-machine rules -/

/-- For OutcomeIsIndependentOfLatency and RunningCommandCompletes: two turns inside a running VERIFY. -/
theorem test_witness_latency :
    let s := { running .verify with iter := some .checkKey, turns := [.work, .host] }
    s.resetIn = false ∧ s.phase = .running .verify ∧ (∀ t ∈ s.turns, t = .host ∨ t = .work) ∧
    ∃ t, Host.Core.run core 2 s = .next t :=
  ⟨rfl, rfl, by decide, _, rfl⟩

/-- A host about to write the word `v` at `off`. -/
def writing (off : Nat) (v : Word) : State :=
  { keyed with script := [.access (.write (Config.base + off) 4 v)] }

/-- The host's write is the next step. -/
theorem step_writing {off : Nat} (v : Word) (h4 : off % 4 = 0) (hl : off < 0x200) :
    step (writing off v) = .next (memWrite off v keyed) := by
  show hostAccess (.write (Config.base + off) 4 v) keyed = _
  simp only [hostAccess, checkAccess_base_add h4 hl]

/-- For CounterWritersAreKnown: each writer changes COUNTER. -/
theorem test_witness_counter_writers :
    (∃ t, step (running .cinc) = .next t ∧ t.counter ≠ (running .cinc).counter) ∧
    (∃ t, step { running .totpc with now := 90 } = .next t ∧ t.counter ≠ (running .totpc).counter) ∧
    (∃ t, step (writing 0x020 1) = .next t ∧ t.counter ≠ (writing 0x020 1).counter) ∧
    (∃ t, step (writing 0x024 1) = .next t ∧ t.counter ≠ (writing 0x024 1).counter) ∧
    ∃ t, step { keyed with counter := 1, turns := [.assertReset] } = .next t ∧ t.counter ≠ 1 :=
  ⟨⟨_, rfl, by decide⟩, ⟨_, rfl, by decide⟩, ⟨_, step_writing 1 (by decide) (by decide), by decide⟩,
    ⟨_, step_writing 1 (by decide) (by decide), by decide⟩, _, rfl, by decide⟩

/-- For HostOwnsTimeAndBuffers: a host write to each operand register changes it. -/
theorem test_witness_operand_writers :
    (∃ t, step (writing 0x00C 8) = .next t ∧ t.digits ≠ (writing 0x00C 8).digits) ∧
    (∃ t, step (writing 0x010 1) = .next t ∧ t.threshold ≠ (writing 0x010 1).threshold) ∧
    (∃ t, step (writing 0x014 1) = .next t ∧ t.keyLen ≠ (writing 0x014 1).keyLen) ∧
    (∃ t, step (writing 0x018 1) = .next t ∧ t.msgLen ≠ (writing 0x018 1).msgLen) ∧
    (∃ t, step (writing 0x01C 1) = .next t ∧ t.submitted ≠ (writing 0x01C 1).submitted) ∧
    (∃ t, step (writing 0x028 1) = .next t ∧ t.period ≠ (writing 0x028 1).period) ∧
    (∃ t, step (writing 0x034 1) = .next t ∧ t.t0 ≠ (writing 0x034 1).t0) ∧
    ∃ t, step (writing 0x03C 1) = .next t ∧ t.drift ≠ (writing 0x03C 1).drift :=
  ⟨⟨_, step_writing 8 (by decide) (by decide), by decide⟩, ⟨_, step_writing 1 (by decide) (by decide), by decide⟩,
    ⟨_, step_writing 1 (by decide) (by decide), by decide⟩, ⟨_, step_writing 1 (by decide) (by decide), by decide⟩,
    ⟨_, step_writing 1 (by decide) (by decide), by decide⟩, ⟨_, step_writing 1 (by decide) (by decide), by decide⟩,
    ⟨_, step_writing 1 (by decide) (by decide), by decide⟩, _, step_writing 1 (by decide) (by decide), by decide⟩

/-- For HostOwnsTimeAndBuffers: a host write to NOW, and to the first KEY and the last MSG word, each change what
they write, the last byte of the word among it, on a canonical buffer. -/
theorem test_witness_host_writers :
    (∃ t, step (writing 0x040 1) = .next t ∧ t.now ≠ (writing 0x040 1).now) ∧
    (∃ t, step (writing 0x044 1) = .next t ∧ t.now ≠ (writing 0x044 1).now) ∧
    Memory.wf (writing 0x100 1).mem = true ∧ Memory.wf (writing 0x1FC 1).mem = true ∧
    (∃ t, step (writing 0x100 1) = .next t ∧ t.mem ≠ (writing 0x100 1).mem ∧
      Memory.read t.mem 0x103 ≠ Memory.read (writing 0x100 1).mem 0x103) ∧
    ∃ t, step (writing 0x1FC 1) = .next t ∧ t.mem ≠ (writing 0x1FC 1).mem ∧
      Memory.read t.mem 0x1FF ≠ Memory.read (writing 0x1FC 1).mem 0x1FF :=
  ⟨⟨_, step_writing 1 (by decide) (by decide), by decide⟩, ⟨_, step_writing 1 (by decide) (by decide), by decide⟩,
    by decide, by decide, ⟨_, step_writing 1 (by decide) (by decide), by decide, by decide⟩,
    _, step_writing 1 (by decide) (by decide), by decide, by decide⟩

/-- For ResultsChangeOnlyAtCompletion: each group of results changes by a completion of its command, DIGEST also
by a host write to its first and its last word. -/
theorem test_witness_result_writers :
    (∃ t, step { running .trunc with digest := digestT1 } = .next t ∧ t.code ≠ (running .trunc).code) ∧
    (∃ t, step { running .verify with submitted := 287082 } = .next t ∧ t.vctr ≠ (running .verify).vctr) ∧
    (∃ t, step (running .hmac) = .next t ∧ t.digest ≠ (running .hmac).digest) ∧
    (∃ t, step (writing 0x050 1) = .next t ∧ t.digest ≠ (writing 0x050 1).digest) ∧
    ∃ t, step (writing 0x060 1) = .next t ∧ t.digest ≠ (writing 0x060 1).digest :=
  ⟨⟨_, rfl, by decide⟩, ⟨_, rfl, by decide +kernel⟩, ⟨_, rfl, by decide +kernel⟩,
    ⟨_, step_writing 1 (by decide) (by decide), by decide⟩, _, step_writing 1 (by decide) (by decide), by decide⟩

/-- For StatusChangesAtLifecycleSteps: acceptance changes LAST_OP and BUSY, completion changes BUSY, DONE and ERR. -/
theorem test_witness_status_writers :
    (∃ t, step (writing 0x004 4) = .next t ∧ t.lastOp ≠ (writing 0x004 4).lastOp ∧
      (writing 0x004 4).busy = false ∧ t.busy = true) ∧
    ∃ t, step (running .illegal) = .next t ∧ (running .illegal).busy = true ∧ t.busy = false ∧
      t.done ≠ (running .illegal).done ∧ t.err ≠ (running .illegal).err :=
  ⟨⟨_, step_writing 4 (by decide) (by decide), by decide, by decide, by decide⟩, _, rfl, by decide, by decide,
    by decide, by decide⟩

/-- A host about to write the word `v` at `off` while a HOTP runs. -/
def writingBusy (off : Nat) (v : Word) : State :=
  { running .hotp with script := [.access (.write (Config.base + off) 4 v)], turns := [.host] }

/-- For StatusChangesAtLifecycleSteps: a dropped write to KEY sets COLL, a STATUS write with bit 16 = 1 clears it. -/
theorem test_witness_collision_steps :
    (∃ t, step (writingBusy 0x1FC 1) = .next t ∧ (writingBusy 0x1FC 1).coll = false ∧ t.coll = true) ∧
    ∃ t, step { writingBusy 0x008 0x00010000 with coll := true } = .next t ∧ t.coll = false := by
  constructor
  · refine ⟨memWrite 0x1FC 1 (running .hotp), ?_, rfl, by decide⟩
    show hostAccess (.write (Config.base + 0x1FC) 4 1) (running .hotp) = _
    simp only [hostAccess, checkAccess_base_add (show 0x1FC % 4 = 0 by decide) (by decide)]
  · refine ⟨memWrite 0x008 0x00010000 { running .hotp with coll := true }, ?_, by decide⟩
    show hostAccess (.write (Config.base + 0x008) 4 0x00010000) { running .hotp with coll := true } = _
    simp only [hostAccess, checkAccess_base_add (show 0x008 % 4 = 0 by decide) (by decide)]

/-- For LoadKeyLoadsTheKey: a key of 128 bytes on an idle block. -/
theorem test_witness_load_key :
    ∃ (b : List Byte) (s : State), b.length ≤ 128 ∧ Memory.wf s.mem = true ∧ s.busy = false ∧
      s.resetIn = false ∧ s.turns = [] ∧ s.script = Stmt.expand (.ldkey b) :=
  ⟨List.replicate 128 0x41, { keyed with script := Stmt.expand (.ldkey (List.replicate 128 0x41)) }, by simp,
    by decide, rfl, rfl, rfl, rfl⟩

/-- For LoadKeyLoadsTheKey: a key of 5 bytes leaves its last word three bytes past its end. -/
theorem test_witness_load_key_padding :
    ([0x4A, 0x65, 0x66, 0x65, 0x21] : List Byte).length ≤ 5 ∧ 7 < 4 * ((5 + 3) / 4) ∧
    0x100 + 4 * ((5 + 3) / 4) ≤ 0x108 := by decide

/-- `exec HOTP` expands to the CMD write and the poll (R90), and a poll round stays while busy. -/
theorem test_expand_exec :
    Stmt.expand (.exec .hotp) = [.access (.write (Config.base + 0x004) 4 3), .poll] ∧
    (hostPoll [] { running .hotp with script := [.poll] }).script = [.poll] ∧
    (hostPoll [] { keyed with script := [.poll] }).script = [] := ⟨rfl, by decide, by decide⟩

end Sys2Proof.Tests
end

section
/-! PROOFS. The family 00_scope: the number of decimal digits (R11, R186), and the operands a command's outcome
depends on (R13, R81). -/
namespace Sys2Proof.Machine

/-! ### The number of decimal digits (R11) -/

/-- The upward search stops at the least exponent whose power exceeds `v`, if that exponent is in its range. -/
theorem leastPower_eq {v k fuel d : Nat} (hd : d ≤ k) (hf : k ≤ d + fuel) (hlt : v < 10 ^ k)
    (hmin : ∀ e, e < k → 10 ^ e ≤ v) : leastPower v fuel d = k := by
  induction fuel generalizing d with
  | zero => exact Nat.le_antisymm hd hf
  | succ fuel ih =>
    unfold leastPower
    rcases Nat.eq_or_lt_of_le hd with rfl | hdk
    · exact if_pos hlt
    · rw [if_neg (Nat.not_lt.mpr (hmin d hdk))]
      exact ih hdk (by omega)

/-- The digit count by the library's logarithm; the fuel `v` of the search suffices since `log v ≤ v`. -/
theorem ndigits_eq_log_succ {v : Nat} (hv : v ≠ 0) : ndigits v = Nat.log 10 v + 1 := by
  have hfuel : Nat.log 10 v ≤ v := Nat.log_le_self 10 v
  exact leastPower_eq (by omega) (by omega) (Nat.lt_pow_succ_log_self (by decide) v)
    fun e he => Nat.pow_le_of_le_log hv (by omega)

theorem ndigits_eq_succ {v k : Nat} (hlo : 10 ^ k ≤ v) (hhi : v < 10 ^ (k + 1)) : ndigits v = k + 1 := by
  have hv : v ≠ 0 := Nat.ne_of_gt (Nat.lt_of_lt_of_le (Nat.pow_pos (by decide)) hlo)
  rw [ndigits_eq_log_succ hv, Nat.log_eq_of_pow_le_of_lt_pow hlo hhi]

/-- Settles O47: `ndigits v` is `log v + 1`, and each of the three ranges lies between two powers of ten. -/
theorem digitCountIsLeastPower : Obligations.DigitCountIsLeastPower := by
  refine ⟨fun v hv => ?_, fun v hlo hhi => ?_, fun v hlo hhi => ?_, fun v hlo hhi => ?_⟩
  · have hv : v ≠ 0 := Nat.ne_of_gt hv
    rw [ndigits_eq_log_succ hv]
    exact ⟨Nat.lt_pow_succ_log_self (by decide) v, fun d hd => Nat.log_lt_of_lt_pow hv hd⟩
  · exact ndigits_eq_succ (k := 5) (by omega) (by omega)
  · exact ndigits_eq_succ (k := 6) (by omega) (by omega)
  · exact ndigits_eq_succ (k := 7) (by omega) (by omega)

/-! ### The operands of a command (R81) -/

section
variable {s s' : State}

/-- The key is KEY_LEN and the bytes of KEY below it. -/
theorem State.keyBytes_congr (hlen : s.keyLen = s'.keyLen)
    (hkey : ∀ n, n < s.keyLen.toNat → Memory.read s.mem (keyBase + n) = Memory.read s'.mem (keyBase + n)) :
    s.keyBytes = s'.keyBytes := by
  unfold State.keyBytes
  rw [← hlen]
  exact Memory.readBytes_congr hkey

/-- The message is MSG_LEN and the bytes of MSG below it. -/
theorem State.msgBytes_congr (hlen : s.msgLen = s'.msgLen)
    (hmsg : ∀ n, n < s.msgLen.toNat → Memory.read s.mem (msgBase + n) = Memory.read s'.mem (msgBase + n)) :
    s.msgBytes = s'.msgBytes := by
  unfold State.msgBytes
  rw [← hlen]
  exact Memory.readBytes_congr hmsg

theorem State.keyTooLong_congr (h : s.keyLen = s'.keyLen) : s.keyTooLong = s'.keyTooLong := by
  rw [State.keyTooLong, State.keyTooLong, h]

theorem State.msgTooLong_congr (h : s.msgLen = s'.msgLen) : s.msgTooLong = s'.msgTooLong := by
  rw [State.msgTooLong, State.msgTooLong, h]

theorem State.digitsLegal_congr (h : s.digits = s'.digits) : s.digitsLegal = s'.digitsLegal := by
  rw [State.digitsLegal, State.digitsLegal, h]

end

/-- Settles O31: each command's outcome is rewritten by the equality of its operands; of the buffers, only the key and
the message as byte strings enter it. -/
theorem outcomesDependOnlyOnOperands : Obligations.OutcomesDependOnlyOnOperands := by
  intro i s s' h
  cases i with
  | hmac =>
    obtain ⟨hkeyLen, hmsgLen, hkey, hmsg⟩ := h
    simp only [commandOutcome, State.hmacOutcome, State.keyTooLong_congr hkeyLen,
      State.msgTooLong_congr hmsgLen, State.keyBytes_congr hkeyLen hkey, State.msgBytes_congr hmsgLen hmsg]
  | trunc =>
    obtain ⟨hdigest, hdigits⟩ := h
    simp only [commandOutcome, State.truncOutcome, State.digitsLegal_congr hdigits, hdigest, hdigits]
  | hotp =>
    obtain ⟨hkeyLen, hcounter, hdigits, hkey⟩ := h
    simp only [commandOutcome, State.hotpOutcome, State.hotpDigest, State.keyTooLong_congr hkeyLen,
      State.digitsLegal_congr hdigits, State.keyBytes_congr hkeyLen hkey, hcounter, hdigits]
  | cinc =>
    have hcounter : s.counter = s'.counter := h
    simp only [commandOutcome, hcounter]
  | totpc =>
    obtain ⟨hperiod, ht0, hdrift, hnow⟩ := h
    simp only [commandOutcome, State.totpOutcome, hperiod, ht0, hdrift, hnow]
  | verify =>
    obtain ⟨hkeyLen, hcounter, hsubmitted, hthreshold, hkey⟩ := h
    simp only [commandOutcome, State.verifyOutcome, State.keyTooLong_congr hkeyLen,
      State.keyBytes_congr hkeyLen hkey, hcounter, hsubmitted, hthreshold]
  | illegal => rfl

end Sys2Proof.Machine
end

section
/-! PROOFS. The family 10_state, part 1: what one step does to the block, said once, and the two invariants that
every step keeps (R24-R27, R42, R44, R181, R210). -/
namespace Sys2Proof.Machine

/-! ### What one step does (R69, R86, R87, R240) -/

/-- The effects a step can have on the block. The host's program, the schedule and the values read move along
with each of them. -/
inductive StepEffect (s t : State) : Prop where
  /-- The reset input is asserted (R240). -/
  | reset (turn : s.resetsNext) (after : t = { s with turns := s.turns.tail }.assertReset)
  /-- Nothing the host can see changes: a turn that passes, a release of reset, a read, or an internal transition
  of a running VERIFY (R67, R181). -/
  | quiet (iter : Option VerifyIter) (resetIn : Bool) (script : List HostOp) (reads : List Word)
      (after : t = { s with
        iter := iter, resetIn := resetIn, script := script, turns := s.turns.tail, reads := reads })
      (moved : iter = s.iter ∨ iter = s.iter.map s.verifyStep)
  /-- The running command completes (R87). -/
  | completion (i : Instr) (turn : s.completesNext i)
      (after : t = { s with turns := s.turns.tail }.finish (commandOutcome i s))
  /-- The host writes while BUSY = 1: at most COLL changes (R28, R49). -/
  | busyWrite (off : Nat) (v : Word) (rest : List HostOp) (coll : Bool) (busy : s.busy = true)
      (turn : s.hostWritesNext off v) (aligned : off % 4 = 0) (inside : off ≤ 0x1FC)
      (after : t = { s with turns := s.turns.tail, script := rest, coll := coll })
      (flag : coll = s.coll ∨ (coll = true ∧ (regAt off).dropsWhileBusy = true) ∨
        (coll = false ∧ regAt off = .status ∧ v.getLsbD 16 = true))
  /-- The host writes a command word to CMD on an idle block (R86). -/
  | acceptance (w : Word) (rest : List HostOp) (idle : s.busy = false) (turn : s.hostWritesNext 0x004 w)
      (after : t = { s with turns := s.turns.tail, script := rest }.accept w)
  /-- The host writes another register of an idle block (R68). -/
  | store (off : Nat) (v : Word) (rest : List HostOp) (idle : s.busy = false) (turn : s.hostWritesNext off v)
      (aligned : off % 4 = 0) (inside : off ≤ 0x1FC) (notCmd : regAt off ≠ .cmd)
      (after : t = writeReg (regAt off) v { s with turns := s.turns.tail, script := rest })

/-- A poll round changes only the host's program and the values read. -/
theorem hostPoll_eq (rest : List HostOp) (s : State) :
    ∃ script reads, hostPoll rest s = { s with script := script, reads := reads } := by
  unfold hostPoll
  split
  · exact ⟨s.script, _, rfl⟩
  · exact ⟨rest, _, rfl⟩

theorem StepEffect.of_hostWrite {s : State} {off : Nat} {v : Word} {rest : List HostOp}
    (turn : s.hostWritesNext off v) (aligned : off % 4 = 0) (inside : off ≤ 0x1FC) :
    StepEffect s (memWrite off v { s with turns := s.turns.tail, script := rest }) := by
  cases hb : s.busy with
  | true =>
    obtain ⟨coll, after, flag⟩ :=
      memWrite_busy_cases (s := { s with turns := s.turns.tail, script := rest }) hb off v
    exact .busyWrite off v rest coll hb turn aligned inside after flag
  | false =>
    rw [memWrite_idle (s := { s with turns := s.turns.tail, script := rest }) hb]
    by_cases hcmd : regAt off = .cmd
    · obtain rfl : off = 0x004 := eq_addr_of_regAt aligned inside hcmd (by decide)
      exact .acceptance v rest hb turn rfl
    · exact .store off v rest hb turn aligned inside hcmd rfl

/-- Every step that answers a next state has one of these effects. -/
theorem stepEffect_of_step {s t : State} (h : step s = .next t) : StepEffect s t := by
  obtain ⟨hturn, rfl⟩ | ⟨-, rfl⟩ | ⟨-, rfl⟩ | ⟨-, -, -, rfl⟩ | ⟨i, hc, rfl⟩ | ⟨-, -, rfl⟩ | ⟨hres, hturn, hhost⟩ :=
    step_cases h _ rfl
  · exact .reset hturn rfl
  · exact .quiet _ _ _ _ rfl (.inl rfl)
  · exact .quiet _ _ _ _ rfl (.inl rfl)
  · exact .quiet _ _ _ _ rfl (.inl rfl)
  · exact .completion i hc (by cases i <;> rfl)
  · exact .quiet _ _ _ _ rfl (.inr rfl)
  · obtain ⟨-, rfl⟩ | ⟨rest, -, rfl⟩ | ⟨off, rest, -, -, rfl⟩ | ⟨off, v, rest, hscript, hwf, rfl⟩ :=
      hostTurn_cases hhost
    · exact .quiet _ _ _ _ rfl (.inl rfl)
    · obtain ⟨script, reads, hpoll⟩ := hostPoll_eq rest { s with turns := s.turns.tail }
      exact .quiet _ _ script reads hpoll (.inl rfl)
    · exact .quiet _ _ _ _ rfl (.inl rfl)
    · obtain ⟨-, aligned, inside⟩ := (wellFormed_access_iff _ _).mp hwf
      exact .of_hostWrite ⟨hturn, hres, rest, hscript⟩ aligned inside

/-! ### The register invariant (R24-R27, R42, R210) -/

/-- Settles O5: each clause is read off the reset values. -/
theorem resetSatisfiesRegisterInvariant : Obligations.ResetSatisfiesRegisterInvariant where
  mem := rfl
  err := by decide
  busy := fun _ => rfl
  idleErr := fun _ => rfl
  lastOp := fun _ h => nomatch h
  code := ⟨6, by decide, by decide⟩

/-- A word that selects a command is the one the encoder writes for it (R82). -/
theorem eq_encode_of_decode {w : Word} {i : Instr} (h : decode w = i) (hi : i ≠ .illegal) : w = encode i := by
  subst h
  obtain ⟨hd, hw⟩ | ⟨hd, hw⟩ | ⟨hd, hw⟩ | ⟨hd, hw⟩ | ⟨hd, hw⟩ | ⟨hd, hw⟩ | ⟨hd, -⟩ := decode_cases w
  case inr.inr.inr.inr.inr.inr => exact absurd hd hi
  all_goals rw [hd, hw]; rfl

theorem State.Inv.accept {s : State} (h : s.Inv) (w : Word) : (s.accept w).Inv where
  mem := h.mem
  err := by simp
  busy := fun _ => rfl
  idleErr := fun _ => rfl
  lastOp := fun i hrun hi => by
    have hdec : decode w = i := by simpa using hrun
    exact congrArg opField (eq_encode_of_decode hdec hi)
  code := h.code

theorem State.Inv.settle {s : State} (h : s.Inv) {c : BitVec 4} (hc : c.toNat ≤ 6) : (s.settle c).Inv where
  mem := h.mem
  err := hc
  busy := fun hb => nomatch hb
  idleErr := fun hd => nomatch hd
  lastOp := fun _ hrun => nomatch hrun
  code := h.code

/-- The code of a truncation to a legal digit count fits CODE: it is below 10^8 (R42). -/
theorem truncate_code_fits (hs : List Byte) {d : Nat} (hd : d ≤ 8) :
    (BitVec.ofNat 27 (truncate hs d).code).toNat = (truncate hs d).snum.toNat % 10 ^ d := by
  have hlt : (truncate hs d).snum.toNat % 10 ^ d < 10 ^ d := Nat.mod_lt _ (Nat.pow_pos (by decide))
  have hpow : 10 ^ d ≤ 10 ^ 8 := Nat.pow_le_pow_right (by decide) hd
  rw [truncate_code, BitVec.toNat_ofNat, Nat.mod_eq_of_lt (by omega)]

/-- After the writes of a successful command, CODE is SNUM mod 10^d for a legal d (R42). -/
theorem State.Inv.perform {s s' : State} {i : Instr} {w : Writes} (h : s.Inv)
    (hw : commandOutcome i s' = .complete w) : (s.perform w).Inv where
  mem := h.mem
  err := h.err
  busy := h.busy
  idleErr := h.idleErr
  lastOp := h.lastOp
  code := by
    have truncated (hs : List Byte) (hlegal : s'.digitsLegal = true) :
        ∃ d, (d = 6 ∨ d = 7 ∨ d = 8) ∧ (BitVec.ofNat 27 (truncate hs s'.digits.toNat).code).toNat =
          (truncate hs s'.digits.toNat).snum.toNat % 10 ^ d := by
      obtain ⟨hlo, hhi⟩ := s'.digitsLegal_iff.mp hlegal
      exact ⟨s'.digits.toNat, by omega, truncate_code_fits hs hhi⟩
    obtain ⟨d, -, rfl⟩ | ⟨-, hlegal, rfl⟩ | ⟨-, hlegal, rfl⟩ | ⟨c, -, rfl⟩ | ⟨k, c, -, rfl⟩ := commandOutcome_writes hw
    · exact h.code
    · exact truncated _ hlegal
    · exact truncated _ hlegal
    · exact h.code
    · exact h.code

theorem State.Inv.finish {s : State} (h : s.Inv) (i : Instr) (s' : State) :
    (s.finish (commandOutcome i s')).Inv := by
  cases hw : commandOutcome i s' with
  | complete w => exact (h.perform hw).settle (by decide)
  | error e => exact h.settle e.code_le_six

theorem State.Inv.writeReg {s : State} (h : s.Inv) (r : Reg) (v : Word) : (writeReg r v s).Inv := by
  obtain ⟨-, hacc⟩ | ⟨_, _, _, _, _, _, _, _, _, _, _, _, mem, hs, -, -, -, -, -, -, -, -, -, -, -, hwf, -, -⟩ :=
    writeReg_cases r v s
  · exact hacc ▸ h.accept v
  · exact hs ▸ ⟨hwf h.mem, h.err, h.busy, h.idleErr, h.lastOp, h.code⟩

/-- The invariant speaks neither of the agents' fields, nor of the iteration state, the reset input and COLL. -/
theorem State.Inv.of_unseen {s : State} (h : s.Inv) (coll : Bool) (iter : Option VerifyIter) (resetIn : Bool)
    (script : List HostOp) (turns : List Turn) (reads : List Word) :
    ({ s with
        coll := coll, iter := iter, resetIn := resetIn, script := script, turns := turns, reads := reads } :
      State).Inv :=
  ⟨h.mem, h.err, h.busy, h.idleErr, h.lastOp, h.code⟩

/-- Settles O6: by the effect of the step; acceptance, completion and a register write each keep the invariant. -/
theorem stepKeepsRegisterInvariant : Obligations.StepKeepsRegisterInvariant := by
  intro s t h hstep
  cases stepEffect_of_step hstep with
  | reset turn after =>
    exact after ▸ resetSatisfiesRegisterInvariant.of_unseen _ _ true s.script s.turns.tail s.reads
  | quiet iter resetIn script reads after moved => exact after ▸ h.of_unseen ..
  | completion i turn after => exact after ▸ (h.of_unseen ..).finish i s
  | busyWrite off v rest coll busy turn aligned inside after flag => exact after ▸ h.of_unseen ..
  | acceptance w rest idle turn after => exact after ▸ (h.of_unseen ..).accept w
  | store off v rest idle turn aligned inside notCmd after => exact after ▸ (h.of_unseen ..).writeReg _ v

/-! ### The iteration state of VERIFY (R44, R181) -/

/-- Settles O7: the block right after reset is idle and has no iteration state. -/
theorem resetSatisfiesIterationInvariant : Obligations.ResetSatisfiesIterationInvariant where
  onlyVerify := by decide
  agrees := fun _ h => nomatch h

/-- The next counter of the loop is the one after the counters tried so far. -/
theorem State.iterOk_attempt_next {s : State} {ctr : Dword} {rem : BitVec 16} {d : Nat} (hrem : rem ≠ 0)
    (h : s.iterOk (.attempt ctr rem d)) (hmiss : hotpCode s.keyBytes ctr d ≠ s.submitted.toNat) :
    s.iterOk (.attempt (counterNext ctr) (rem - 1) d) := by
  obtain ⟨hkey, hlo, hhi, hd, hle, hctr, htried⟩ := h
  have hpos : 0 < rem.toNat := Nat.pos_of_ne_zero fun h0 => hrem (BitVec.eq_of_toNat_eq h0)
  have hrem' : (rem - 1).toNat = rem.toNat - 1 := by bv_omega
  have htries : s.threshold.toNat - (rem.toNat - 1) = s.threshold.toNat - rem.toNat + 1 := by omega
  refine ⟨hkey, hlo, hhi, hd, by omega, ?_, fun j hj => ?_⟩
  · rw [hrem', htries, ← counterNext_add, hctr]
    simp only [counterNext]
    ac_rfl
  · rw [hrem', htries] at hj
    rcases Nat.lt_succ_iff_lt_or_eq.mp hj with hlt | rfl
    · exact htried j hlt
    · exact hctr ▸ hmiss

/-- One internal transition of R181 keeps what the state machine has established. -/
theorem State.iterOk_verifyStep {s : State} {it : VerifyIter} (h : s.iterOk it) : s.iterOk (s.verifyStep it) := by
  cases it with
  | checkKey =>
    rw [State.verifyStep]
    split
    case isTrue hlong => exact if_pos hlong
    case isFalse hshort =>
      have := s.keyTooLong_iff.not.mp hshort
      show s.keyLen.toNat ≤ 128
      omega
  | checkRange =>
    have hkey : s.keyLen.toNat ≤ 128 := h
    rw [State.verifyStep]
    split
    case isTrue hrange =>
      obtain ⟨hlo, hhi⟩ := (inCodeRange_iff _).mp hrange
      exact ⟨hkey, hlo, hhi, rfl, Nat.le_refl _, by simp, fun j hj => by omega⟩
    case isFalse hrange =>
      show s.verifyOutcome = _
      rw [State.verifyOutcome, State.keyTooLong_eq_false hkey]
      simp [hrange]
  | attempt ctr rem d =>
    obtain ⟨hkey, hlo, hhi, rfl, hle, rfl, htried⟩ := id h
    have houtcome := State.verifyOutcome_search hkey hlo hhi
    by_cases hrem : rem = 0
    · subst hrem
      exact houtcome.trans (verifySearch_none htried)
    by_cases hmatch : hotpCode s.keyBytes (s.counter + BitVec.ofNat 64 (s.threshold.toNat - rem.toNat))
        (ndigits s.submitted.toNat) = s.submitted.toNat
    · have hpos : 0 < rem.toNat := Nat.pos_of_ne_zero fun h0 => hrem (BitVec.eq_of_toNat_eq h0)
      have hsteps : BitVec.ofNat 16 (s.threshold.toNat - (s.threshold.toNat - (s.threshold.toNat - rem.toNat))) =
          s.threshold - rem := by bv_omega
      rw [State.verifyStep_attempt_match hrem hmatch]
      exact houtcome.trans (hsteps ▸ verifySearch_first (by omega) hmatch htried)
    · rw [State.verifyStep_attempt_next hrem hmatch]
      exact State.iterOk_attempt_next hrem h hmatch
  | doneOk steps ctr => exact h
  | doneErr e => exact h

/-- A block that runs no VERIFY and has no iteration state. -/
theorem State.IterInv.of_none {s : State} (hiter : s.iter = none) (hphase : s.phase ≠ .running .verify) :
    s.IterInv where
  onlyVerify := by simp [hiter, hphase]
  agrees := fun it h => by simp [hiter] at h

theorem State.IterInv.iter_eq_none {s : State} (h : s.IterInv) (hidle : s.busy = false) : s.iter = none := by
  have hphase := s.busy_eq_false_iff.mp hidle
  simpa [hphase] using h.onlyVerify

/-- A VERIFY starts in CHECK_KEY, where nothing is established yet (R181). -/
theorem State.iterInv_accept (s : State) (w : Word) : (s.accept w).IterInv where
  onlyVerify := by
    simp only [State.accept_iter, State.accept_phase, Phase.running.injEq]
    cases decode w <;> simp [startIter]
  agrees := fun it h => by
    rw [State.accept_iter] at h
    cases hd : decode w <;> rw [hd] at h <;> cases h
    trivial

/-- Settles O8: while a VERIFY runs only an internal transition moves the iteration state, and no operand changes;
every other step finds or leaves the block without one, or starts one in CHECK_KEY. -/
theorem stepKeepsIterationInvariant : Obligations.StepKeepsIterationInvariant := by
  intro s t h hstep
  cases stepEffect_of_step hstep with
  | reset turn after => exact after ▸ .of_none rfl (by simp [State.reset])
  | quiet iter resetIn script reads after moved =>
    subst after
    rcases moved with rfl | rfl
    · exact ⟨h.onlyVerify, h.agrees⟩
    · refine ⟨by simpa using h.onlyVerify, fun it hit => ?_⟩
      obtain ⟨it₀, hit₀, rfl⟩ := Option.map_eq_some_iff.mp hit
      exact State.iterOk_verifyStep (h.agrees it₀ hit₀)
  | completion i turn after => exact after ▸ .of_none (by simp) (by simp)
  | busyWrite off v rest coll busy turn aligned inside after flag =>
    exact after ▸ ⟨h.onlyVerify, h.agrees⟩
  | acceptance w rest idle turn after => exact after ▸ State.iterInv_accept _ w
  | store off v rest idle turn aligned inside notCmd after =>
    obtain ⟨hcmd, -⟩ | ⟨_, _, _, _, _, _, _, _, _, _, _, _, _, hs, -⟩ :=
      writeReg_cases (regAt off) v { s with turns := s.turns.tail, script := rest }
    · exact absurd hcmd notCmd
    · have hphase := s.busy_eq_false_iff.mp idle
      exact after ▸ hs ▸ .of_none (h.iter_eq_none idle) (by simp [hphase])

end Sys2Proof.Machine
end

section
/-! PROOFS. The family 10_state, part 2: the register map, what a host access reads and writes (R20-R49), and the
reset values (R50). -/
namespace Sys2Proof.Machine

/-! ### Reads and writes by a register's name (R20, R49) -/

theorem memRead_addr (r : Reg) (s : State) : memRead r.addr s = readReg r s := by
  rw [memRead, regAt_addr]

/-- A host write to a register of an idle block is performed. -/
theorem memWrite_addr {s : State} (hidle : s.busy = false) (r : Reg) (v : Word) :
    memWrite r.addr v s = writeReg r v s := by
  rw [memWrite_idle hidle, regAt_addr]

/-- Where R49 drops a write while BUSY = 1, only COLL changes. -/
theorem memWrite_dropped {s : State} {off : Nat} (hbusy : s.busy = true)
    (hdrop : (regAt off).dropsWhileBusy = true) (v : Word) : memWrite off v s = s.collide := by
  simp [memWrite, hbusy, hdrop]

/-- The list of R49 is that of the WO and RW registers. -/
theorem Reg.dropsWhileBusy_iff (r : Reg) : r.dropsWhileBusy = true ↔ r.access = .wo ∨ r.access = .rw := by
  unfold Reg.dropsWhileBusy
  cases r.access <;> decide

theorem writeReg_ignored {r : Reg} (h : r.access = .ro ∨ r.access = .reserved) (v : Word) (s : State) :
    writeReg r v s = s := by
  cases r with
  | id | offset | snum | code | vsteps | vctrHi | vctrLo | reserved => rfl
  | _ => simp [Reg.access] at h

/-- A write to an RO register or a reserved offset is ignored, busy or not (R46, R49). -/
theorem memWrite_ignored {off : Nat} (h : (regAt off).access = .ro ∨ (regAt off).access = .reserved) (v : Word)
    (s : State) : memWrite off v s = s := by
  have hkeep : (regAt off).dropsWhileBusy = false := by
    unfold Reg.dropsWhileBusy
    rcases h with h | h <;> rw [h]
  rw [memWrite, hkeep, Bool.and_false, if_neg (by decide), writeReg_ignored h]

/-- A write to STATUS is never dropped and changes at most COLL (R28). -/
theorem memWrite_status (s : State) (v : Word) :
    memWrite 0x008 v s = { s with coll := if v.getLsbD 16 then false else s.coll } := by
  rw [← s.writeStatus_eq v]
  exact if_neg (by simp [show (regAt 0x008).dropsWhileBusy = false by decide])

/-- The access column of R20 below the buffers' windows, by word. -/
theorem access_below_buffers : ∀ k < 64,
    ((k = 1 ∨ (3 ≤ k ∧ k ≤ 17) ∨ (20 ≤ k ∧ k ≤ 24)) → (regAt (4 * k)).dropsWhileBusy = true) ∧
    ((k = 0 ∨ k = 18 ∨ k = 19 ∨ 25 ≤ k) →
      (regAt (4 * k)).access = .ro ∨ (regAt (4 * k)).access = .reserved) ∧
    ((k = 18 ∨ k = 19 ∨ k = 29 ∨ 32 ≤ k) → regAt (4 * k) = .reserved) := by
  decide

/-- The words of the two windows (R47, R48). -/
theorem regAt_buffers {off : Nat} (hlo : 0x100 ≤ off) (hhi : off < 0x200) :
    (∃ i, regAt off = .key i) ∨ ∃ i, regAt off = .msg i := by
  unfold regAt
  by_cases h : off < 0x180
  · exact .inl ⟨_, if_pos ⟨hlo, h⟩⟩
  · rw [if_neg fun h' => h h'.2, if_pos ⟨Nat.le_of_not_lt h, hhi⟩]
    exact .inr ⟨_, rfl⟩

/-- Settles O14: ID is an RO register that no field of the state backs. -/
theorem identificationIsConstant : Obligations.IdentificationIsConstant := fun s v =>
  ⟨rfl, memWrite_ignored (.inl rfl) v s, rfl⟩

/-- Settles O15: at each of these offsets stands the reserved register. -/
theorem reservedOffsetsInert : Obligations.ReservedOffsetsInert := by
  intro s off v hoff
  have hres : regAt off = .reserved := by
    obtain ⟨k, rfl⟩ : ∃ k, off = 4 * k := ⟨off / 4, by omega⟩
    exact (access_below_buffers k (by omega)).2.2 (by omega)
  exact ⟨by rw [memRead, hres]; rfl, memWrite_ignored (.inr (by rw [hres]; rfl)) v s⟩

/-- Settles O21: the offsets of each clause by the access column; a read is performed whatever the phase. -/
theorem busyDropsWrites : Obligations.BusyDropsWrites := by
  refine ⟨fun s off v hbusy h4 hle hoff => ?_, memWrite_status, fun s off v h4 hoff => ?_,
    fun s off rest _ h4 hle hscript => ?_⟩
  · refine memWrite_dropped hbusy ?_ v
    by_cases hlow : off < 0x100
    · obtain ⟨k, rfl⟩ : ∃ k, off = 4 * k := ⟨off / 4, by omega⟩
      exact (access_below_buffers k (by omega)).1 (by omega)
    · obtain ⟨i, hr⟩ | ⟨i, hr⟩ := regAt_buffers (Nat.le_of_not_lt hlow) (by omega) <;> rw [hr] <;> rfl
  · obtain ⟨k, rfl⟩ : ∃ k, off = 4 * k := ⟨off / 4, by omega⟩
    exact memWrite_ignored ((access_below_buffers k (by omega)).2.1 (by omega)) v s
  · rw [hostTurn, hscript]
    simp only [hostAccess, checkAccess_base_add h4 (by omega : off < 0x200)]
    rfl

/-! ### An idle block's registers read back what was written (R20, R63, R68) -/

/-- What a write to an RW register leaves to be read there: the bits within the register's width. -/
theorem readReg_writeReg_same {s : State} {r : Reg} (hwf : Memory.wf s.mem = true) (hrw : r.access = .rw)
    (v : Word) : readReg r (writeReg r v s) = (v.setWidth r.width).setWidth 32 := by
  cases r with
  | msg i =>
    have := i.isLt
    have hback := Memory.readWord_writeWord_same (v := v) hwf (a := msgBase + 4 * i.val)
      (by simp only [keyBase, msgBase]; omega) (by simp only [msgBase, windowEnd]; omega)
    exact hback.trans (by simp [Reg.width])
  | id | cmd | status | offset | snum | code | vsteps | vctrHi | vctrLo | key | reserved => cases hrw
  | _ => simp [readReg, writeReg, Reg.width]

/-- Settles O16: each offset is the register's own, and a register read after its own write gives the value back. -/
theorem writableRegistersReadBack : Obligations.WritableRegistersReadBack := by
  refine ⟨fun s => ?_, fun s r v hwf hidle hrw => ?_⟩
  · exact ⟨rfl, rfl, rfl, rfl, rfl, rfl, rfl, rfl, rfl, rfl, rfl, rfl, rfl, rfl, rfl⟩
  · rw [memWrite_addr hidle, memRead_addr, readReg_writeReg_same hwf hrw]

/-- A half of a 64-bit register is kept by every write but one to it (R65). -/
theorem writeReg_halves (r : Reg) (v : Word) (s : State) :
    (r ≠ .counterHi → hiHalf (writeReg r v s).counter = hiHalf s.counter) ∧
    (r ≠ .counterLo → loHalf (writeReg r v s).counter = loHalf s.counter) ∧
    (r ≠ .periodHi → hiHalf (writeReg r v s).period = hiHalf s.period) ∧
    (r ≠ .periodLo → loHalf (writeReg r v s).period = loHalf s.period) ∧
    (r ≠ .t0Hi → hiHalf (writeReg r v s).t0 = hiHalf s.t0) ∧
    (r ≠ .t0Lo → loHalf (writeReg r v s).t0 = loHalf s.t0) ∧
    (r ≠ .driftHi → hiHalf (writeReg r v s).drift = hiHalf s.drift) ∧
    (r ≠ .driftLo → loHalf (writeReg r v s).drift = loHalf s.drift) ∧
    (r ≠ .nowHi → hiHalf (writeReg r v s).now = hiHalf s.now) ∧
    (r ≠ .nowLo → loHalf (writeReg r v s).now = loHalf s.now) := by
  cases r <;> simp [writeReg, State.writeStatus_eq]

/-- A word of DIGEST is kept by every write but one to it (R39). -/
theorem writeReg_digest (r : Reg) (v : Word) (s : State) :
    (r ≠ .digest0 → (writeReg r v s).digest.w0 = s.digest.w0) ∧
    (r ≠ .digest1 → (writeReg r v s).digest.w1 = s.digest.w1) ∧
    (r ≠ .digest2 → (writeReg r v s).digest.w2 = s.digest.w2) ∧
    (r ≠ .digest3 → (writeReg r v s).digest.w3 = s.digest.w3) ∧
    (r ≠ .digest4 → (writeReg r v s).digest.w4 = s.digest.w4) := by
  cases r <;> simp [writeReg, State.writeStatus_eq]

/-- A word of MSG is kept by every write but one to it (R48). -/
theorem readWord_writeReg_msg {s : State} (hwf : Memory.wf s.mem = true) {r : Reg} {j : Fin 32} (hr : r ≠ .msg j)
    (v : Word) :
    Memory.readWord (writeReg r v s).mem (msgBase + 4 * j.val) = Memory.readWord s.mem (msgBase + 4 * j.val) := by
  obtain ⟨rfl, -⟩ | ⟨_, _, _, _, _, _, _, _, _, _, _, _, mem, hs, -, -, -, -, -, -, -, -, -, -, -, -, hmem, -⟩ :=
    writeReg_cases r v s
  · rfl
  · rcases hmem with rfl | ⟨i, rfl⟩ | ⟨i, rfl⟩
    · rw [hs]
    · have := i.isLt
      exact Memory.readWord_writeWord_other hwf (by omega) (by simp only [keyBase, windowEnd]; omega)
        (.inr (by simp only [keyBase, msgBase]; omega))
    · have := i.isLt
      have hij : i.val ≠ j.val := fun h => hr (congrArg Reg.msg (Fin.ext h))
      exact Memory.readWord_writeWord_other hwf (by simp only [keyBase, msgBase]; omega)
        (by simp only [msgBase, windowEnd]; omega) (by omega)

/-- Only a command or a STATUS write changes the STATUS word (R24-R28). -/
theorem statusWord_writeReg {r : Reg} (hcmd : r ≠ .cmd) (hr : r ≠ .status) (v : Word) (s : State) :
    (writeReg r v s).statusWord = s.statusWord := by
  obtain ⟨hcmd', -⟩ | ⟨_, _, _, _, _, _, _, _, _, _, _, _, _, hs, hcoll, -⟩ := writeReg_cases r v s
  · exact absurd hcmd' hcmd
  · have hcoll := hcoll.resolve_right fun h => hr h.2.1
    exact State.statusWord_congr (by rw [hs, hcoll]) (by rw [hs]) (by rw [hs]) (by rw [hs]) (by rw [hs]; rfl)

/-- What is read of a register after a write to another one that is no command. -/
theorem readReg_writeReg_other {s : State} (hwf : Memory.wf s.mem = true) {r r' : Reg} (hcmd : r ≠ .cmd)
    (hne : r ≠ r') (v : Word) : readReg r' (writeReg r v s) = readReg r' s := by
  obtain ⟨hcHi, hcLo, hpHi, hpLo, htHi, htLo, hdHi, hdLo, hnHi, hnLo⟩ := writeReg_halves r v s
  obtain ⟨hw0, hw1, hw2, hw3, hw4⟩ := writeReg_digest r v s
  obtain ⟨hcmd', -⟩ | ⟨_, _, _, _, _, _, _, _, _, _, _, _, _, hs, -, hdigits, hthreshold, hkeyLen, hmsgLen,
    hsubmitted, -⟩ := writeReg_cases r v s
  · exact absurd hcmd' hcmd
  cases r' with
  | status => exact statusWord_writeReg hcmd hne v s
  | digits => rw [hs, hdigits.resolve_right hne]; rfl
  | threshold => rw [hs, hthreshold.resolve_right hne]; rfl
  | keyLen => rw [hs, hkeyLen.resolve_right hne]; rfl
  | msgLen => rw [hs, hmsgLen.resolve_right hne]; rfl
  | submitted => rw [hs, hsubmitted.resolve_right hne]; rfl
  | counterHi => exact hcHi hne
  | counterLo => exact hcLo hne
  | periodHi => exact hpHi hne
  | periodLo => exact hpLo hne
  | t0Hi => exact htHi hne
  | t0Lo => exact htLo hne
  | driftHi => exact hdHi hne
  | driftLo => exact hdLo hne
  | nowHi => exact hnHi hne
  | nowLo => exact hnLo hne
  | digest0 => exact hw0 hne
  | digest1 => exact hw1 hne
  | digest2 => exact hw2 hne
  | digest3 => exact hw3 hne
  | digest4 => exact hw4 hne
  | msg j => exact readWord_writeReg_msg hwf hne v
  | id | cmd | key | reserved => rfl
  | offset | snum | code | vsteps | vctrHi | vctrLo => rw [hs]; rfl

/-- Settles O17: on an idle block the write is performed, and it is read only at its own register. -/
theorem writeLeavesOtherRegisters : Obligations.WriteLeavesOtherRegisters := by
  intro s r r' v hwf hcmd hne hidle
  rw [memWrite_addr hidle, memRead_addr, memRead_addr, readReg_writeReg_other hwf hcmd hne]

/-! ### The STATUS word (R24-R28) -/

/-- The STATUS word, bit by bit. -/
theorem State.getLsbD_statusWord (s : State) {i : Nat} (hi : i < 32) :
    s.statusWord.getLsbD i =
      if i = 0 then s.busy else if i = 1 then s.done else if i < 4 then false
      else if i < 8 then s.err.getLsbD (i - 4) else if i < 12 then s.lastOp.getLsbD (i - 8)
      else if i = 16 then s.coll else false := by
  unfold State.statusWord
  interval_cases i <;> simp

/-- Settles O19: each field is read off the bits of the word. -/
theorem statusWordLayout : Obligations.StatusWordLayout := by
  intro s
  have hread : memRead 0x008 s = s.statusWord := memRead_addr .status s
  rw [hread]
  refine ⟨s.getLsbD_statusWord (by decide), s.getLsbD_statusWord (by decide), ?_, ?_, ?_, ?_,
    s.getLsbD_statusWord (by decide), ?_⟩
  all_goals
    apply BitVec.eq_of_getLsbD_eq
    intro i hi
    rw [BitVec.getLsbD_extractLsb', s.getLsbD_statusWord (by omega)]
    interval_cases i <;> simp

/-- Settles O20: a dropped write sets COLL; STATUS writes, acceptance and completion by their own lemmas. -/
theorem collisionFlagIsSticky : Obligations.CollisionFlagIsSticky := by
  refine ⟨fun s off v hbusy hacc => ?_, memWrite_status, fun s w hidle => ?_, fun i s t hexec => ?_, fun s => ?_, rfl⟩
  · rw [memWrite_dropped hbusy ((Reg.dropsWhileBusy_iff _).mpr hacc), State.collide_coll]
  · have hwrite : memWrite 0x004 w s = s.accept w := memWrite_addr hidle .cmd w
    rw [hwrite, State.accept_coll]
  · rw [exec_next hexec, State.finish_coll]
  · obtain ⟨-, -, hgap2, -, -, hgap12, -, hgap17⟩ := statusWordLayout s
    exact ⟨hgap2, hgap12, hgap17⟩

/-! ### The KEY and MSG windows (R47, R48) -/

/-- No command writes the buffers. -/
theorem exec_mem {i : Instr} {s t : State} (h : exec i s = .next t) : t.mem = s.mem := by
  rw [exec_next h, State.finish_mem]

/-- The bytes after a word write to either window. -/
theorem read_after_word {m : List Host.Cell} (hwf : Memory.wf m = true) {base : Nat} (hlo : 0x100 ≤ base)
    (hhi : base + 4 ≤ 0x200) (v : Word) (a : Nat) :
    Memory.read (Memory.writeWord m base v) a =
      if base ≤ a ∧ a < base + 4 then v.extractLsb' (24 - 8 * (a - base)) 8 else Memory.read m a :=
  Memory.read_writeWord hwf hlo hhi

/-- Of the buffers, a command's outcome depends on the key and the message only, and on each only where the command
reads it (R81). -/
theorem commandOutcome_buffers {i : Instr} {s : State} {m : List Host.Cell}
    (hkey : i = .hmac ∨ i = .hotp ∨ i = .verify →
      ∀ n, n < s.keyLen.toNat → Memory.read m (0x100 + n) = Memory.read s.mem (0x100 + n))
    (hmsg : i = .hmac → ∀ n, n < s.msgLen.toNat → Memory.read m (0x180 + n) = Memory.read s.mem (0x180 + n)) :
    commandOutcome i { s with mem := m } = commandOutcome i s := by
  apply outcomesDependOnlyOnOperands
  cases i with
  | hmac => exact ⟨rfl, rfl, hkey (by simp), hmsg rfl⟩
  | trunc => exact ⟨rfl, rfl⟩
  | hotp => exact ⟨rfl, rfl, rfl, hkey (by simp)⟩
  | cinc => rfl
  | totpc => exact ⟨rfl, rfl, rfl, rfl⟩
  | verify => exact ⟨rfl, rfl, rfl, rfl, hkey (by simp)⟩
  | illegal => trivial

/-- Settles O22: the window's words by the memory laws; of the buffers, a command's outcome depends on the key and
the message only. -/
theorem keyWindowHoldsTheKey : Obligations.KeyWindowHoldsTheKey := by
  refine ⟨fun s i v hwf hidle hi => ?_, fun s i hi => memRead_addr (.key ⟨i, hi⟩) s, fun s => ?_,
    fun i s t h a => by rw [exec_mem h],
    fun i s m hkey hmsg => commandOutcome_buffers (fun _ => hkey) (fun _ n _ => hmsg n), fun _ _ => rfl⟩
  · have hwrite : memWrite (0x100 + 4 * i) v s = { s with mem := Memory.writeWord s.mem (0x100 + 4 * i) v } :=
      memWrite_addr hidle (.key ⟨i, hi⟩) v
    rw [hwrite]
    exact ⟨rfl, read_after_word hwf (by omega) (by omega) v⟩
  · exact ⟨Memory.readBytes_length .., fun n hn => Memory.readBytes_getD _ _ hn⟩

/-- A command that reads the key raises LENGTH_RANGE when KEY_LEN > 128, whatever the buffers hold (R213). -/
theorem commandOutcome_keyTooLong {s : State} (hlong : s.keyTooLong = true) {i : Instr}
    (hi : i = .hmac ∨ i = .hotp ∨ i = .verify) : commandOutcome i s = .error .lengthRange := by
  rcases hi with rfl | rfl | rfl <;> exact if_pos hlong

/-- Settles O23: as for KEY; a KEY_LEN above 128 would let the key run into MSG, and is refused before it is read. -/
theorem msgWindowHoldsTheMessage : Obligations.MsgWindowHoldsTheMessage := by
  refine ⟨fun s i v hwf hidle hi => ?_, fun s => ?_, fun i s t h a => by rw [exec_mem h],
    fun i s m hkey hmsg => ?_, fun _ _ => rfl⟩
  · have hwrite : memWrite (0x180 + 4 * i) v s = { s with mem := Memory.writeWord s.mem (0x180 + 4 * i) v } :=
      memWrite_addr hidle (.msg ⟨i, hi⟩) v
    have hread : ∀ t, memRead (0x180 + 4 * i) t = Memory.readWord t.mem (0x180 + 4 * i) :=
      memRead_addr (.msg ⟨i, hi⟩)
    have hlo : 0x100 ≤ 0x180 + 4 * i := by omega
    have hhi : 0x180 + 4 * i + 4 ≤ 0x200 := by omega
    rw [hread, hwrite]
    exact ⟨rfl, Memory.readWord_writeWord_same hwf hlo hhi, read_after_word hwf hlo hhi v⟩
  · exact ⟨Memory.readBytes_length .., fun n hn => Memory.readBytes_getD _ _ hn⟩
  · by_cases hlong : s.keyTooLong = true ∧ (i = .hmac ∨ i = .hotp ∨ i = .verify)
    · obtain ⟨hlong, hi⟩ := hlong
      rw [commandOutcome_keyTooLong hlong hi, commandOutcome_keyTooLong (s := { s with mem := m }) hlong hi]
    · refine commandOutcome_buffers (fun hi n hn => ?_) hmsg
      have := s.keyTooLong_iff.not.mp fun h => hlong ⟨h, hi⟩
      exact hkey n (by omega)

/-- Settles O24: only the MSG window reads the buffers, and it lies at 0x180 and above. -/
theorem keyBytesNeverReadBack : Obligations.KeyBytesNeverReadBack := by
  intro s m off hmsg
  unfold memRead
  cases regAt off with
  | msg i =>
    have hbyte : ∀ j, Memory.read m (msgBase + 4 * i.val + j) = Memory.read s.mem (msgBase + 4 * i.val + j) :=
      fun j => hmsg _ (by simp only [msgBase]; omega)
    simp only [readReg, Memory.readWord, hbyte]
    rw [show Memory.read m (msgBase + 4 * i.val) = Memory.read s.mem (msgBase + 4 * i.val) from hbyte 0]
  | _ => rfl

/-! ### Reset values (R20, R50) and the bytes of a digest (R39) -/

/-- Settles O1: the reset column, field by field. -/
theorem resetLeavesSpecValues : Obligations.ResetLeavesSpecValues := by
  unfold Obligations.ResetLeavesSpecValues
  exact ⟨by decide, rfl, rfl, rfl, rfl, rfl, rfl, rfl, rfl, rfl, rfl, rfl, rfl, rfl, rfl, rfl, rfl, rfl, rfl, rfl,
    rfl, rfl, fun _ => rfl, rfl, rfl⟩

/-- The reset column below the buffers' windows, by word. -/
theorem memRead_reset_below_buffers : ∀ k < 64,
    memRead (4 * k) State.reset =
      if 4 * k = 0x000 then 0x4F545031 else if 4 * k = 0x00C then 6 else if 4 * k = 0x010 then 15
      else if 4 * k = 0x014 then 20 else if 4 * k = 0x02C then 30 else if 4 * k = 0x03C then 2 else 0 := by
  decide

theorem Memory.readWord_nil (a : Nat) : Memory.readWord [] a = 0 := by
  simp [Memory.readWord]

/-- Settles O2: word by word below the windows; in them KEY reads 0 and MSG holds only zero bytes. -/
theorem resetReadsResetColumn : Obligations.ResetReadsResetColumn := by
  intro off hoff h4
  obtain ⟨k, rfl⟩ : ∃ k, off = 4 * k := ⟨off / 4, by omega⟩
  by_cases hlow : k < 64
  · exact memRead_reset_below_buffers k hlow
  · have hread : memRead (4 * k) State.reset = 0 := by
      unfold memRead
      obtain ⟨i, hr⟩ | ⟨i, hr⟩ := regAt_buffers (off := 4 * k) (by omega) hoff <;> rw [hr]
      · rfl
      · exact Memory.readWord_nil _
    rw [hread]
    repeat rw [if_neg (by omega)]

/-- Settles O42: each word of the digest is laid out by its four bit slices. -/
theorem digestBytesBigEndian : Obligations.DigestBytesBigEndian := by
  intro d
  refine ⟨d.bytes_length, fun j hj => ?_⟩
  simp only [Digest.bytes, beBytes_word]
  interval_cases j <;> exact ⟨rfl, rfl, rfl, rfl, rfl⟩

end Sys2Proof.Machine
end

section
/-! PROOFS. The family 10_state, part 3: which steps change which register (R24-R28, R30-R48, R70, R217). -/
namespace Sys2Proof.Machine

/-! ### The operands and the buffers (R30-R38, R47, R48) -/

/-- A byte of the buffers that a write to a register changes lies in that register's own word. -/
theorem byte_in_written_word {s : State} (hwf : Memory.wf s.mem = true) {r : Reg} {v : Word} {a : Nat}
    (hne : Memory.read (writeReg r v s).mem a ≠ Memory.read s.mem a) :
    0x100 ≤ r.addr ∧ r.addr ≤ a ∧ a < r.addr + 4 := by
  have inWord {base : Nat} (hlo : 0x100 ≤ base) (hhi : base + 4 ≤ 0x200)
      (hne : Memory.read (Memory.writeWord s.mem base v) a ≠ Memory.read s.mem a) :
      0x100 ≤ base ∧ base ≤ a ∧ a < base + 4 := by
    rw [Memory.read_writeWord hwf hlo hhi] at hne
    have hin : base ≤ a ∧ a < base + 4 := by
      by_contra hout
      exact hne (if_neg hout)
    omega
  obtain ⟨rfl, -⟩ | ⟨_, _, _, _, _, _, _, _, _, _, _, _, _, hs, -, -, -, -, -, -, -, -, -, -, -, -, hmem, -⟩ :=
    writeReg_cases r v s
  · exact absurd rfl hne
  · rcases hmem with rfl | ⟨i, rfl⟩ | ⟨i, rfl⟩
    · rw [hs] at hne
      exact absurd rfl hne
    · have := i.isLt
      exact inWord (base := keyBase + 4 * i.val) (by simp only [keyBase]; omega) (by simp only [keyBase]; omega) hne
    · have := i.isLt
      exact inWord (base := msgBase + 4 * i.val) (by simp only [msgBase]; omega) (by simp only [msgBase]; omega) hne

/-- A register of the windows stands at 0x100 or above. -/
theorem le_offset_of_buffer {off : Nat} (h4 : off % 4 = 0) (hle : off ≤ 0x1FC)
    (h : (∃ i, regAt off = .key i) ∨ ∃ i, regAt off = .msg i) : 0x100 ≤ off := by
  obtain ⟨i, hat⟩ | ⟨i, hat⟩ := h <;> rw [eq_addr_of_regAt h4 hle hat (by simp)]
  · exact Nat.le_add_right _ _
  · exact Nat.le_trans (by decide : 0x100 ≤ msgBase) (Nat.le_add_right _ _)

/-- Settles O57: only a store on an idle block and reset move an operand or a byte, and a store only its own. -/
theorem hostOwnsTimeAndBuffers : Obligations.HostOwnsTimeAndBuffers := by
  intro s t hstep
  cases stepEffect_of_step hstep with
  | reset turn after => simp [turn]
  | quiet iter resetIn script reads after moved => simp [after]
  | completion i turn after => simp [after]
  | busyWrite off v rest coll busy turn aligned inside after flag => simp [after]
  | acceptance w rest idle turn after => simp [after]
  | store off v rest idle turn aligned inside notCmd after =>
    have stores (r : Reg) (hr : r ≠ .reserved) (hat : regAt off = r) : s.hostStoresNext r.addr :=
      eq_addr_of_regAt aligned inside hat hr ▸ ⟨idle, v, turn⟩
    have hbyte (hwf : Memory.wf s.mem = true) (a : Nat) (hne : Memory.read t.mem a ≠ Memory.read s.mem a) :
        ∃ off, off % 4 = 0 ∧ 0x100 ≤ off ∧ off < 0x200 ∧ off ≤ a ∧ a < off + 4 ∧ s.hostStoresNext off := by
      obtain ⟨hlo, hle, hlt⟩ :=
        byte_in_written_word (s := { s with turns := s.turns.tail, script := rest }) hwf (after ▸ hne)
      have hat : off = (regAt off).addr := eq_addr_of_regAt aligned inside rfl fun h => by
        rw [h] at hlo
        exact absurd hlo (by decide)
      rw [← hat] at hlo hle hlt
      exact ⟨off, aligned, hlo, by omega, hle, hlt, idle, v, turn⟩
    obtain ⟨hcmd, -⟩ | ⟨_, _, _, _, _, _, _, _, _, _, _, _, _, hs, -, hdigits, hthreshold, hkeyLen, hmsgLen,
      hsubmitted, hperiod, ht0, hdrift, -, hnow, -, hmem, -⟩ := writeReg_cases (regAt off) v _
    · exact absurd hcmd notCmd
    have hafter := after.trans hs
    refine ⟨fun h => .inl ?_, fun h => .inl ?_, fun h => .inl ?_, fun h => .inl ?_, fun h => .inl ?_,
      fun h => ?_, fun h => ?_, fun h => ?_, fun h => ?_, fun h => .inl ?_, fun hwf a h => .inl (hbyte hwf a h)⟩
    all_goals rw [hafter] at h
    · exact stores .digits (by decide) (hdigits.resolve_left h)
    · exact stores .threshold (by decide) (hthreshold.resolve_left h)
    · exact stores .keyLen (by decide) (hkeyLen.resolve_left h)
    · exact stores .msgLen (by decide) (hmsgLen.resolve_left h)
    · exact stores .submitted (by decide) (hsubmitted.resolve_left h)
    · exact (hperiod.resolve_left h).imp (stores .periodHi (by decide)) fun h => .inl (stores .periodLo (by decide) h)
    · exact (ht0.resolve_left h).imp (stores .t0Hi (by decide)) fun h => .inl (stores .t0Lo (by decide) h)
    · exact (hdrift.resolve_left h).imp (stores .driftHi (by decide)) fun h => .inl (stores .driftLo (by decide) h)
    · exact (hnow.resolve_left h).imp (stores .nowHi (by decide)) fun h => .inl (stores .nowLo (by decide) h)
    · exact ⟨off, le_offset_of_buffer aligned inside (hmem.resolve_left h), by omega, idle, v, turn⟩

/-! ### The results (R39-R43, R45, R70) -/

/-- The results a completion leaves as they are, by command (R81). -/
theorem finish_results (s s' : State) (i : Instr) :
    (i = .trunc ∨ i = .hotp ∨ ((s.finish (commandOutcome i s')).offset = s.offset ∧
      (s.finish (commandOutcome i s')).snum = s.snum ∧ (s.finish (commandOutcome i s')).code = s.code)) ∧
    (i = .verify ∨ ((s.finish (commandOutcome i s')).vsteps = s.vsteps ∧
      (s.finish (commandOutcome i s')).vctr = s.vctr)) ∧
    (i = .hmac ∨ i = .hotp ∨ (s.finish (commandOutcome i s')).digest = s.digest) := by
  cases hw : commandOutcome i s' with
  | error e => simp [State.finish_error]
  | complete w =>
    obtain ⟨d, rfl, rfl⟩ | ⟨rfl, -, rfl⟩ | ⟨rfl, -, rfl⟩ | ⟨c, -, rfl⟩ | ⟨k, c, rfl, rfl⟩ := commandOutcome_writes hw
    all_goals simp [State.finish_complete]

/-- Only a write to a word of DIGEST changes it, and these words lie at 0x050 to 0x060 (R20, R39). -/
theorem offset_of_digest {off : Nat} (h4 : off % 4 = 0) (hle : off ≤ 0x1FC)
    (h : regAt off = .digest0 ∨ regAt off = .digest1 ∨ regAt off = .digest2 ∨ regAt off = .digest3 ∨
      regAt off = .digest4) : 0x050 ≤ off ∧ off ≤ 0x060 := by
  rcases h with hat | hat | hat | hat | hat <;> rw [eq_addr_of_regAt h4 hle hat (by decide)] <;> decide

/-- Settles O58: results move at a completion of a command that writes them, DIGEST also by a store, and by reset. -/
theorem resultsChangeOnlyAtCompletion : Obligations.ResultsChangeOnlyAtCompletion := by
  refine ⟨fun s => ⟨rfl, rfl, rfl, rfl, rfl, rfl, rfl, rfl, rfl, rfl, rfl⟩, fun s t hstep => ?_⟩
  cases stepEffect_of_step hstep with
  | reset turn after => simp [turn]
  | quiet iter resetIn script reads after moved => simp [after]
  | completion i turn after =>
    obtain ⟨htruncation, hsync, hdigest⟩ := finish_results { s with turns := s.turns.tail } s i
    rw [← after] at htruncation hsync hdigest
    refine ⟨fun h => ?_, fun h => ?_, fun h => ?_⟩
    · obtain rfl | rfl | ⟨hoffset, hsnum, hcode⟩ := htruncation
      · exact .inl turn
      · exact .inr (.inl turn)
      · simp [hoffset, hsnum, hcode] at h
    · obtain rfl | ⟨hvsteps, hvctr⟩ := hsync
      · exact .inl turn
      · simp [hvsteps, hvctr] at h
    · obtain rfl | rfl | hkept := hdigest
      · exact .inl turn
      · exact .inr (.inl turn)
      · exact absurd hkept h
  | busyWrite off v rest coll busy turn aligned inside after flag => simp [after]
  | acceptance w rest idle turn after => simp [after]
  | store off v rest idle turn aligned inside notCmd after =>
    obtain ⟨hcmd, -⟩ | ⟨_, _, _, _, _, _, _, _, _, _, _, _, _, hs, -, -, -, -, -, -, -, -, -, -, -, -, -, hdigest⟩ :=
      writeReg_cases (regAt off) v _
    · exact absurd hcmd notCmd
    have hafter := after.trans hs
    refine ⟨by simp [hafter], by simp [hafter], fun h => .inr (.inr (.inl ?_))⟩
    rw [hafter] at h
    obtain ⟨hlo, hhi⟩ := offset_of_digest aligned inside (hdigest.resolve_left h)
    exact ⟨off, hlo, hhi, idle, v, turn⟩

/-! ### STATUS (R24-R28, R217) -/

/-- Settles O59: acceptance and completion move LAST_OP, DONE, ERR and BUSY; a write to STATUS and a dropped write
move COLL. -/
theorem statusChangesAtLifecycleSteps : Obligations.StatusChangesAtLifecycleSteps := by
  intro s t hstep
  cases stepEffect_of_step hstep with
  | reset turn after => simp [after, turn, State.reset]
  | quiet iter resetIn script reads after moved =>
    have hbusy : t.busy = s.busy := State.busy_congr (by rw [after])
    exact ⟨by simp [after], by simp [after], by simp +contextual [hbusy], by simp +contextual [hbusy],
      by simp +contextual [after], by simp +contextual [after]⟩
  | completion i turn after =>
    have hcompletes : ∃ i, s.completesNext i := ⟨i, turn⟩
    simp +contextual [after, hcompletes]
  | busyWrite off v rest coll busy turn aligned inside after flag =>
    have hbusy : t.busy = s.busy := State.busy_congr (by rw [after])
    have hcoll : t.coll = coll := by rw [after]
    refine ⟨by simp [after], by simp [after], by simp [busy], by simp [hbusy, busy], ?_, ?_⟩ <;> rw [hcoll]
    · obtain rfl | ⟨-, hdrop⟩ | ⟨rfl, -⟩ := flag
      · simp +contextual
      · exact fun _ _ => ⟨busy, off, v, turn, offset_of_dropsWhileBusy aligned inside hdrop⟩
      · simp
    · obtain rfl | ⟨rfl, -⟩ | ⟨-, hat, hbit⟩ := flag
      · simp +contextual
      · simp
      · obtain rfl : off = 0x008 := eq_addr_of_regAt aligned inside hat (by decide)
        exact fun _ _ => .inl ⟨v, turn, hbit⟩
  | acceptance w rest idle turn after =>
    have hstores : s.hostStoresNext 0x004 := ⟨idle, w, turn⟩
    simp +contextual [after, hstores, idle]
  | store off v rest idle turn aligned inside notCmd after =>
    obtain ⟨hcmd, -⟩ | ⟨coll, _, _, _, _, _, _, _, _, _, _, _, _, hs, flag, -⟩ := writeReg_cases (regAt off) v _
    · exact absurd hcmd notCmd
    have hafter := after.trans hs
    have hbusy : t.busy = s.busy := State.busy_congr (by rw [hafter])
    have hcoll : t.coll = coll := by rw [hafter]
    refine ⟨by simp [hafter], by simp [hafter], by simp [hbusy, idle], by simp [idle], ?_, ?_⟩ <;> rw [hcoll]
    · obtain rfl | ⟨rfl, -⟩ := flag <;> simp +contextual
    · obtain rfl | ⟨-, hat, hbit⟩ := flag
      · simp +contextual
      · obtain rfl : off = 0x008 := eq_addr_of_regAt aligned inside hat (by decide)
        exact fun _ _ => .inl ⟨v, turn, hbit⟩

end Sys2Proof.Machine
end

section
/-! PROOFS. The family 20_memory: which host accesses have a step (R60, R64), reads and halves (R65, R67), and the
outcome of a running command under host accesses and internal transitions (R71, R88). -/
namespace Sys2Proof.Machine

/-! ### Which accesses have a step (R60, R64) -/

theorem checkAccess_width {bytes : Nat} (h : bytes ≠ 4) (addr : Nat) :
    checkAccess addr bytes = .error .accessWidth :=
  if_pos h

theorem checkAccess_outside {addr : Nat} (h : addr < Config.base ∨ Config.base + 0x200 ≤ addr) :
    checkAccess addr 4 = .error .outsideWindow := by
  have hnone : windowOffset addr = none := if_neg (by simp only [windowEnd]; omega)
  simp [checkAccess, hnone]

theorem checkAccess_misaligned {off : Nat} (hin : off < 0x200) (h4 : off % 4 ≠ 0) :
    checkAccess (Config.base + off) 4 = .error .misaligned := by
  have hsome : windowOffset (Config.base + off) = some off := by
    rw [windowOffset, if_pos (by simp only [windowEnd]; omega), Nat.add_sub_cancel_left]
  simp [checkAccess, hsome, h4]

section
variable {a : Access} {addr bytes : Nat} {v : Word} {s : State}

/-- An access that passes the check is performed. -/
theorem hostAccess_of_ok (ha : a = .read addr bytes ∨ a = .write addr bytes v) {off : Nat}
    (h : checkAccess addr bytes = .ok off) : ∃ t, hostAccess a s = .next t := by
  obtain rfl | rfl := ha <;> exact ⟨_, by rw [hostAccess, h]⟩

/-- An access that fails the check is refused, under the name the check gives. -/
theorem hostAccess_of_error (ha : a = .read addr bytes ∨ a = .write addr bytes v) {r : Refusal}
    (h : checkAccess addr bytes = .error r) : hostAccess a s = .refused r := by
  obtain rfl | rfl := ha <;> rw [hostAccess, h]

theorem hostAccess_next_or_refused (ha : a = .read addr bytes ∨ a = .write addr bytes v) :
    (∃ t, hostAccess a s = .next t) ∨ ∃ r, hostAccess a s = .refused r := by
  cases hc : checkAccess addr bytes with
  | ok off => exact .inl (hostAccess_of_ok ha hc)
  | error r => exact .inr ⟨r, hostAccess_of_error ha hc⟩

/-- An access has a step exactly when the check passes it. -/
theorem hostAccess_next_iff (ha : a = .read addr bytes ∨ a = .write addr bytes v) :
    (∃ t, hostAccess a s = .next t) ↔
      ∃ off, addr = Config.base + off ∧ bytes = 4 ∧ off % 4 = 0 ∧ off ≤ 0x1FC := by
  simp only [← wellFormed_access_iff, ← checkAccess_ok_iff]
  constructor
  · rintro ⟨t, ht⟩
    cases hc : checkAccess addr bytes with
    | ok off => exact ⟨off, rfl⟩
    | error r =>
      rw [hostAccess_of_error ha hc] at ht
      cases ht
  · rintro ⟨off, hc⟩
    exact hostAccess_of_ok ha hc

end

/-- Settles O12: reads and writes alike have a step where the check passes, and else its refusal. -/
theorem onlyWordAccessesInWindow : Obligations.OnlyWordAccessesInWindow := by
  intro s addr bytes v
  refine ⟨hostAccess_next_iff (v := v) (.inl rfl), hostAccess_next_iff (.inr rfl),
    fun a ha => ⟨hostAccess_next_or_refused ha, fun hwidth => ?_, ?_, ?_⟩⟩
  · exact hostAccess_of_error ha (checkAccess_width hwidth addr)
  · rintro rfl hout
    exact hostAccess_of_error ha (checkAccess_outside hout)
  · rintro rfl off rfl hin h4
    exact hostAccess_of_error ha (checkAccess_misaligned hin h4)

/-! ### Reads, and the halves of a 64-bit register (R65, R67) -/

/-- What a host reads depends neither on its own program nor on what it has read before. -/
theorem memRead_of_unseen (off : Nat) (s : State) (script : List HostOp) (reads : List Word) :
    memRead off { s with script := script, reads := reads } = memRead off s := by
  unfold memRead
  cases regAt off <;> rfl

/-- Settles O13: a defined read is performed, and of the state only the host's own fields move. -/
theorem readsHaveNoSideEffects : Obligations.ReadsHaveNoSideEffects := by
  intro s off rest h4 hle hscript
  have hread : memRead off { s with script := rest } = memRead off s := memRead_of_unseen off s rest s.reads
  refine ⟨?_, memRead_of_unseen off s rest _⟩
  simp only [hostTurn, hscript, hostAccess, checkAccess_base_add h4 (by omega : off < 0x200), hread]
  rfl

/-- Settles O18: an 8-byte access fails the width check; each offset holds one half, which alone is stored. -/
theorem halvesAreIndependent : Obligations.HalvesAreIndependent := by
  refine ⟨fun s addr v => ?_, fun s v hidle => ?_⟩
  · have hwidth := checkAccess_width (bytes := 8) (by decide) addr
    exact ⟨⟨_, hostAccess_of_error (v := v) (.inl rfl) hwidth⟩, _, hostAccess_of_error (.inr rfl) hwidth⟩
  · have stored (r : Reg) : memWrite r.addr v s = writeReg r v s := memWrite_addr hidle r v
    exact ⟨stored .counterHi, stored .counterLo, stored .periodHi, stored .periodLo, stored .t0Hi, stored .t0Lo,
      stored .driftHi, stored .driftLo, stored .nowHi, stored .nowLo⟩

/-! ### The outcome of a running command (R71, R88) -/

theorem takeTurn_host {s : State} (h : s.resetIn = false) : takeTurn .host s = hostTurn s :=
  if_neg (by simp [h])

theorem takeTurn_work {s : State} (h : s.resetIn = false) : takeTurn .work s = .next (workTurn s) :=
  if_neg (by simp [h])

/-- A host turn while a command runs reaches no operand: a write changes at most COLL (R49), a read nothing. -/
theorem hostTurn_busy {s t : State} (hbusy : s.busy = true) (h : hostTurn s = .next t) :
    ∃ coll script reads, t = { s with coll := coll, script := script, reads := reads } := by
  obtain ⟨-, rfl⟩ | ⟨rest, -, rfl⟩ | ⟨off, rest, -, -, rfl⟩ | ⟨off, v, rest, -, -, rfl⟩ := hostTurn_cases h
  · exact ⟨_, _, _, rfl⟩
  · obtain ⟨script, reads, hpoll⟩ := hostPoll_eq rest s
    exact ⟨_, script, reads, hpoll⟩
  · exact ⟨_, _, _, rfl⟩
  · obtain ⟨coll, hwrite⟩ := memWrite_busy (s := { s with script := rest }) hbusy off v
    exact ⟨coll, _, _, hwrite⟩

/-- A scheduled host or internal turn while a command runs moves only COLL, the iteration state, the schedule and the
host's own fields. -/
theorem step_busy_turn {s t : State} {u : Turn} {us : List Turn} (hres : s.resetIn = false)
    (hbusy : s.busy = true) (hturns : s.turns = u :: us) (hu : u = .host ∨ u = .work) (h : step s = .next t) :
    ∃ coll iter script reads,
      t = { s with coll := coll, iter := iter, script := script, turns := us, reads := reads } := by
  have hmove : takeTurn u { s with turns := us } = .next t := by
    rw [← h, step, hturns]
  obtain rfl | rfl := hu
  case inl =>
    rw [takeTurn_host (s := { s with turns := us }) hres] at hmove
    obtain ⟨coll, script, reads, ht⟩ := hostTurn_busy (s := { s with turns := us }) hbusy hmove
    exact ⟨coll, _, script, reads, ht⟩
  case inr =>
    rw [takeTurn_work (s := { s with turns := us }) hres] at hmove
    cases hmove
    exact ⟨_, _, _, _, rfl⟩

/-- No outcome depends on COLL, the iteration state, the schedule or the host's own fields (R81). -/
theorem commandOutcome_of_unseen (i : Instr) (s : State) (coll : Bool) (iter : Option VerifyIter)
    (script : List HostOp) (turns : List Turn) (reads : List Word) :
    commandOutcome i
      { s with coll := coll, iter := iter, script := script, turns := turns, reads := reads } =
        commandOutcome i s := by
  cases i <;> rfl

/-- Settles O54: by induction on the turns performed; each leaves the phase, the reset input and the outcome. -/
theorem outcomeIsIndependentOfLatency : Obligations.OutcomeIsIndependentOfLatency := by
  intro ts
  induction ts with
  | nil =>
    intro rest s t i hres hrun hturns _ h
    cases h
    exact ⟨hrun, hres, hturns, rfl⟩
  | cons u us ih =>
    intro rest s t i hres hrun hturns hmoves h
    obtain ⟨s', hstep, hrest⟩ := step_of_run_succ h
    obtain ⟨coll, iter, script, reads, hs'⟩ :=
      step_busy_turn hres (State.busy_of_running hrun) hturns (hmoves u (by simp)) hstep
    obtain ⟨hrun', hres', hturns', houtcome⟩ :=
      ih rest s' t i (hs' ▸ hres) (hs' ▸ hrun) (by rw [hs']; rfl) (fun w hw => hmoves w (by simp [hw])) hrest
    exact ⟨hrun', hres', hturns', houtcome.trans (hs' ▸ commandOutcome_of_unseen ..)⟩

end Sys2Proof.Machine
end

section
/-! PROOFS. The family 30_encoding: the decoder and the encoder (R80-R85), acceptance and completion of a command
(R86-R88), and the expansion of `ldkey` (R90). -/
namespace Sys2Proof.Machine

/-! ### The decoder and the encoder (R80, R82, R83, R85) -/

theorem decode_encode : ∀ i : Instr, decode (encode i) = i
  | .hmac => Laws.RoundTrip.hmac rfl
  | .trunc => Laws.RoundTrip.trunc rfl
  | .hotp => Laws.RoundTrip.hotp rfl
  | .cinc => Laws.RoundTrip.cinc rfl
  | .totpc => Laws.RoundTrip.totpc rfl
  | .verify => Laws.RoundTrip.verify rfl
  | .illegal => Laws.RoundTrip.illegal rfl

/-- A command is selected by its own word and by no other (R82). -/
theorem decode_eq_iff {i : Instr} (hi : i ≠ .illegal) (w : Word) : decode w = i ↔ w = encode i :=
  ⟨fun h => eq_encode_of_decode h hi, fun h => h ▸ decode_encode i⟩

/-- The illegal words by their fields (R83). -/
theorem decode_eq_illegal_iff (w : Word) :
    decode w = .illegal ↔ rsvField w ≠ 0 ∨ opField w = 0 ∨ 7 ≤ (opField w).toNat := by
  obtain ⟨-, rfl⟩ | ⟨-, rfl⟩ | ⟨-, rfl⟩ | ⟨-, rfl⟩ | ⟨-, rfl⟩ | ⟨-, rfl⟩ | ⟨hd, hfields⟩ := decode_cases w
  case inr.inr.inr.inr.inr.inr => exact iff_of_true hd (by rwa [← BitVec.toNat_inj])
  all_goals decide

/-- Settles O9: the six words are the encoder's, and the illegal words are told by their fields. -/
theorem decodeSelectsByWholeWord : Obligations.DecodeSelectsByWholeWord := fun w =>
  ⟨decode_eq_iff (by decide) w, decode_eq_iff (by decide) w, decode_eq_iff (by decide) w,
    decode_eq_iff (by decide) w, decode_eq_iff (by decide) w, decode_eq_iff (by decide) w,
    decode_eq_illegal_iff w⟩

/-- The words that select a command are those whose RSV is 0 and whose OP is in 1..6 (R82). -/
theorem commandWord_iff (w : Word) : WellFormed.commandWord w = true ↔ decode w ≠ .illegal := by
  have hcheck : WellFormed.commandWord w = true ↔
      rsvField w = 0 ∧ 1 ≤ (opField w).toNat ∧ (opField w).toNat ≤ 6 := by
    simp [WellFormed.commandWord, rsvField, opField]
  rw [hcheck, ne_eq, decode_eq_illegal_iff, ← BitVec.toNat_inj (x := opField w),
    show (0 : BitVec 4).toNat = 0 from rfl]
  by_cases hrsv : rsvField w = 0
  · simp only [hrsv, true_and, ne_eq, not_true_eq_false, false_or]
    omega
  · exact iff_of_false (fun h => hrsv h.1) fun h => h (.inl hrsv)

/-- Settles O10: the encoder's word selects its command, and no other word does. -/
theorem encodeDecodeRoundTrip : Obligations.EncodeDecodeRoundTrip :=
  ⟨fun i _ => decode_encode i,
    fun w hw => (eq_encode_of_decode rfl ((commandWord_iff w).mp hw)).symm, commandWord_iff⟩

/-- Settles O11: two of the encoder's words, and one illegal by OP, two by RSV. -/
theorem sampleWordsDecode : Obligations.SampleWordsDecode :=
  ⟨decode_encode .hotp, decode_encode .verify, (decode_eq_illegal_iff _).mpr (.inr (.inr (by decide))),
    (decode_eq_illegal_iff _).mpr (.inl (by decide)), (decode_eq_illegal_iff _).mpr (.inl (by decide))⟩

/-! ### Acceptance (R83, R86) -/

/-- A write to CMD on an idle block is accepted. -/
theorem memWrite_cmd {s : State} (hidle : s.busy = false) (w : Word) : memWrite 0x004 w s = s.accept w :=
  memWrite_addr hidle .cmd w

theorem startIter_eq (i : Instr) : startIter i = if i = .verify then some .checkKey else none := by
  cases i <;> rfl

/-- The state after acceptance, field by field (R86). -/
theorem State.accept_eq (s : State) (w : Word) :
    s.accept w = { s with
      done := false, err := 0, lastOp := w.extractLsb' 0 4, phase := .running (decode w),
      iter := if decode w = .verify then some .checkKey else none } := by
  rw [State.accept, startIter_eq]
  rfl

/-- Settles O25: CMD is a WO register, and what STATUS reads after acceptance is BUSY = 1 and DONE = 0. -/
theorem cmdWriteIsAccepted : Obligations.CmdWriteIsAccepted := by
  refine fun s w => ⟨fun hbusy => memWrite_dropped hbusy rfl w, fun hidle => ?_⟩
  have hread : memRead 0x008 (s.accept w) = (s.accept w).statusWord := memRead_addr .status _
  rw [memWrite_cmd hidle, hread]
  exact ⟨s.accept_eq w, State.getLsbD_statusWord _ (by decide), State.getLsbD_statusWord _ (by decide)⟩

/-- Settles O38: an illegal word is accepted like any other, and its completion has ILLEGAL_CMD as its outcome. -/
theorem illegalWordCompletesWithCode : Obligations.IllegalWordCompletesWithCode := by
  refine ⟨fun w hw => ?_, fun s => exec_eq .illegal s⟩
  have hdecode : decode w = .illegal := (decode_eq_illegal_iff w).mpr hw
  refine ⟨hdecode, fun s hidle => ?_⟩
  rw [memWrite_cmd hidle, State.accept_phase, hdecode]
  exact ⟨rfl, rfl⟩

/-! ### Completion (R87, R88) -/

/-- Settles O27: `exec` finishes with the command's outcome, which is performed or raised as an error. -/
theorem completionWritesOutcome : Obligations.CompletionWritesOutcome := by
  refine ⟨fun i s w hout => ?_, fun i s e hout => ?_, fun i s t hexec => ?_, fun _ => rfl⟩
  · rw [exec_eq, hout, State.finish_complete]
    rfl
  · rw [exec_eq, hout, State.finish_error]
    rfl
  · rw [exec_next hexec]
    exact ⟨State.finish_busy .., State.finish_coll .., State.finish_lastOp ..⟩

theorem takeTurn_complete {s : State} {i : Instr} (hres : s.resetIn = false) (hrun : s.phase = .running i) :
    takeTurn .complete s = exec i s := by
  simp [takeTurn, completeTurn, hres, hrun]

/-- The completion the schedule names. -/
theorem step_complete {s : State} {i : Instr} {ts : List Turn} (hturns : s.turns = .complete :: ts)
    (hres : s.resetIn = false) (hrun : s.phase = .running i) : step s = exec i { s with turns := ts } := by
  rw [step, hturns]
  exact takeTurn_complete hres hrun

/-- With the schedule empty, the engine completes as soon as it can (log 1). -/
theorem step_default_complete {s : State} {i : Instr} (hturns : s.turns = []) (hres : s.resetIn = false)
    (hrun : s.phase = .running i) : step s = exec i s := by
  have hdefault : defaultTurn s = .complete := if_pos (State.busy_of_running hrun)
  rw [step, hturns]
  exact (congrArg (takeTurn · s) hdefault).trans (takeTurn_complete hres hrun)

/-- The host's next operation is a word write that the block defines. -/
theorem hostTurn_write {s : State} {off : Nat} {v : Word} {rest : List HostOp} (h4 : off % 4 = 0)
    (hlt : off < 0x200) (hscript : s.script = wrOp off v :: rest) :
    hostTurn s = .next (memWrite off v { s with script := rest }) := by
  simp only [hostTurn, hscript, wrOp, hostAccess, checkAccess_base_add h4 hlt]

theorem wordOfBits_full (w : Nat) : wordOfBits 32 w = BitVec.ofNat 32 w := by
  apply BitVec.eq_of_toNat_eq
  simp [wordOfBits]

/-- Settles O26: the turn that is due, named by the schedule or not, on a running command and on a CMD write. -/
theorem stepRunsTheDecodedCommand : Obligations.StepRunsTheDecodedCommand := by
  refine ⟨fun s i ts => step_complete, fun s i => step_default_complete,
    fun s w ts rest hturns hres hphase hscript => ?_, fun s w _ => ⟨?_, ?_⟩⟩
  · have hidle : s.busy = false := s.busy_eq_false_iff.mpr hphase
    have hstep : step s = takeTurn .host { s with turns := ts } := by rw [step, hturns]
    rw [hstep, takeTurn_host (s := { s with turns := ts }) hres,
      hostTurn_write (s := { s with turns := ts }) (by decide) (by decide) hscript,
      memWrite_cmd (s := { s with turns := ts, script := rest }) hidle, State.accept_eq]
  · rw [decodeTableWord, if_pos (Nat.le_refl _), wordOfBits_full]
  · rw [State.withFetchWord, wordOfBits_full, placeCommand, State.accept_eq]
    exact step_complete rfl rfl rfl

/-- Settles O55: the turns performed leave the command running (R71), and then the completion is due. -/
theorem runningCommandCompletes : Obligations.RunningCommandCompletes := by
  intro s u i hres hrun hmoves hu
  obtain ⟨hrun', hres', hturns', -⟩ :=
    outcomeIsIndependentOfLatency s.turns [] s u i hres hrun (List.append_nil _).symm hmoves hu
  have hstep : step u = exec i u := step_default_complete hturns' hres' hrun'
  exact ⟨_, (run_succ_last hu).trans (hstep.trans (exec_eq i u)), State.finish_busy .., State.finish_done ..,
    exec_eq i u⟩

/-! ### The expansion of `ldkey` (R90) -/

/-- With the schedule empty and the block idle, the host performs its next write (log 1). -/
theorem step_default_write {s : State} {off : Nat} {v : Word} {rest : List HostOp} (hturns : s.turns = [])
    (hres : s.resetIn = false) (hidle : s.busy = false) (h4 : off % 4 = 0) (hlt : off < 0x200)
    (hscript : s.script = wrOp off v :: rest) :
    step s = .next (writeReg (regAt off) v { s with script := rest }) := by
  have hdefault : defaultTurn s = .host := if_neg (by simp [hidle])
  have hstep : step s = takeTurn .host s := by rw [step, hturns, ← hdefault]
  rw [hstep, takeTurn_host hres, hostTurn_write h4 hlt hscript, memWrite_idle (s := { s with script := rest }) hidle]

/-- The buffers after the first `n` word writes of `ldkey b`. -/
def loadKeyMem (b : List Byte) (m : List Host.Cell) : (n : Nat) → List Host.Cell
  | 0 => m
  | n + 1 => Memory.writeWord (loadKeyMem b m n) (keyBase + 4 * n) (bufferWord b n)

theorem loadKeyMem_wf {b : List Byte} {m : List Host.Cell} (hwf : Memory.wf m = true) {n : Nat} (hn : n ≤ 32) :
    Memory.wf (loadKeyMem b m n) = true := by
  induction n with
  | zero => exact hwf
  | succ n ih =>
    exact Memory.writeWord_wf (ih (by omega)) (by omega) (by simp only [keyBase, windowEnd]; omega)

/-- Byte `j` of `from_be` of four bytes is the j-th of them. -/
theorem byteOfWord_bufferWord (b : List Byte) (i : Nat) {j : Nat} (hj : j < 4) :
    byteOfWord (bufferWord b i) j = b.getD (4 * i + j) 0 := by
  apply BitVec.eq_of_toNat_eq
  rw [byteOfWord, bufferWord, BitVec.extractLsb'_toNat, wordOfBytes_four_toNat, fromBe_four, Nat.shiftRight_eq_div_pow]
  have h0 := (b.getD (4 * i) 0).isLt
  have h1 := (b.getD (4 * i + 1) 0).isLt
  have h2 := (b.getD (4 * i + 2) 0).isLt
  have h3 := (b.getD (4 * i + 3) 0).isLt
  interval_cases j
  · rw [show 4 * i + 0 = 4 * i from rfl]
    omega
  all_goals omega

/-- After `n` word writes the first `4n` bytes of KEY are those of the string, 0 past its end; all others are as
before. -/
theorem read_loadKeyMem {b : List Byte} {m : List Host.Cell} (hwf : Memory.wf m = true) {n : Nat} (hn : n ≤ 32)
    (a : Nat) : Memory.read (loadKeyMem b m n) a =
      if 0x100 ≤ a ∧ a < 0x100 + 4 * n then b.getD (a - 0x100) 0 else Memory.read m a := by
  induction n with
  | zero => rw [if_neg (by omega)]; rfl
  | succ n ih =>
    rw [loadKeyMem, Memory.read_writeWord (loadKeyMem_wf hwf (by omega)) (by omega)
      (by simp only [keyBase, windowEnd]; omega), ih (by omega)]
    simp only [keyBase]
    by_cases hword : 0x100 + 4 * n ≤ a ∧ a < 0x100 + 4 * n + 4
    · rw [if_pos hword, if_pos (by omega), byteOfWord_bufferWord b n (by omega),
        show 4 * n + (a - (0x100 + 4 * n)) = a - 0x100 by omega]
    · rw [if_neg hword]
      exact if_congr (by omega) rfl rfl

/-- The host's program after the first `n` word writes of `ldkey`. -/
theorem drop_expand_ldkey {b : List Byte} {n : Nat} (hn : n < (b.length + 3) / 4) :
    (Stmt.expand (.ldkey b)).drop n =
      wrOp (keyBase + 4 * n) (bufferWord b n) :: (Stmt.expand (.ldkey b)).drop (n + 1) := by
  have hlen : n < (Stmt.expand (.ldkey b)).length := by simp [Stmt.expand, loadOps]; omega
  rw [List.drop_eq_getElem_cons hlen]
  simp [Stmt.expand, loadOps, hn]

section
variable {s : State} {b : List Byte} (hlen : b.length ≤ 128) (hidle : s.busy = false) (hres : s.resetIn = false)
  (hturns : s.turns = []) (hscript : s.script = Stmt.expand (.ldkey b))
include hlen hidle hres hturns hscript

/-- The word writes of `ldkey`, performed one by one on an idle block. -/
theorem run_ldkey_words {n : Nat} (hn : n ≤ (b.length + 3) / 4) :
    core.run n s = .next { s with script := (Stmt.expand (.ldkey b)).drop n, mem := loadKeyMem b s.mem n } := by
  induction n with
  | zero => rw [List.drop_zero, ← hscript]; rfl
  | succ n ih =>
    have hreg : regAt (keyBase + 4 * n) = .key ⟨n, by omega⟩ := regAt_addr (.key ⟨n, by omega⟩)
    rw [run_succ_last (ih (by omega))]
    refine (step_default_write
      (s := { s with script := (Stmt.expand (.ldkey b)).drop n, mem := loadKeyMem b s.mem n })
      hturns hres hidle (by simp only [keyBase]; omega) (by simp only [keyBase]; omega)
      (drop_expand_ldkey hn)).trans ?_
    rw [hreg]
    rfl

/-- The whole expansion: after the word writes, the write to KEY_LEN. -/
theorem run_ldkey :
    core.run s.script.length s = .next
      { s with
        script := [], mem := loadKeyMem b s.mem ((b.length + 3) / 4), keyLen := BitVec.ofNat 8 b.length } := by
  have hcount : s.script.length = (b.length + 3) / 4 + 1 := by simp [hscript, Stmt.expand, loadOps]
  have hlast : (Stmt.expand (.ldkey b)).drop ((b.length + 3) / 4) =
      [wrOp Reg.keyLen.addr (BitVec.ofNat 32 b.length)] :=
    List.drop_left' (by simp [loadOps])
  have hwidth : (BitVec.ofNat 32 b.length).setWidth 8 = BitVec.ofNat 8 b.length :=
    BitVec.setWidth_ofNat_of_le (by decide) _
  rw [hcount, run_succ_last (run_ldkey_words hlen hidle hres hturns hscript (Nat.le_refl _))]
  refine (step_default_write
    (s := { s with
      script := (Stmt.expand (.ldkey b)).drop ((b.length + 3) / 4)
      mem := loadKeyMem b s.mem ((b.length + 3) / 4) })
    hturns hres hidle (by decide) (by decide) hlast).trans ?_
  rw [regAt_addr, ← hwidth]
  rfl

end

/-- Settles O60: the run of the expansion, and the bytes its word writes leave. -/
theorem loadKeyLoadsTheKey : Obligations.LoadKeyLoadsTheKey := by
  intro s b hlen hwf hidle hres hturns hscript
  have hbyte := read_loadKeyMem (b := b) hwf (n := (b.length + 3) / 4) (by omega)
  have hkey (n : Nat) (hn : n < 4 * ((b.length + 3) / 4)) :
      Memory.read (loadKeyMem b s.mem ((b.length + 3) / 4)) (0x100 + n) = b.getD n 0 := by
    rw [hbyte, if_pos (by omega), Nat.add_sub_cancel_left]
  refine ⟨_, run_ldkey hlen hidle hres hturns hscript, ?_, rfl, fun n hn => hkey n (by omega),
    fun n hle hlt => ?_, fun a ha => ?_, rfl⟩
  · have hcount : (BitVec.ofNat 8 b.length).toNat = b.length := by
      rw [BitVec.toNat_ofNat]
      omega
    unfold State.keyBytes
    simp only [hcount]
    refine List.ext_getElem (Memory.readBytes_length ..) fun n h₁ h₂ => ?_
    rw [← List.getD_eq_getElem _ 0 h₁, Memory.readBytes_getD _ _ h₂, ← List.getD_eq_getElem _ 0 h₂]
    exact hkey n (by omega)
  · exact (hkey n hlt).trans (List.getD_eq_default _ _ hle)
  · exact (hbyte a).trans (if_neg (by omega))

end Sys2Proof.Machine
end

section
/-! PROOFS. The family 40_hmac_sha1: the padded message and its blocks (R102), the message schedule (R105), the
compression (R103, R104, R106), and HMAC with its key (R108-R110). -/
namespace Sys2Proof.Machine

/-! ### The padded message and its blocks (R102) -/

/-- `(55 - L) mod 64` is a non-negative remainder, so taking it as a natural number loses nothing. -/
theorem padZeros_cast (len : Nat) : (padZeros len : Int) = (55 - (len : Int)) % 64 :=
  Int.toNat_of_nonneg (Int.emod_nonneg _ (by decide))

theorem padZeros_lt (len : Nat) : padZeros len < 64 := by
  have := padZeros_cast len
  omega

/-- The zero bytes fill the last block exactly. -/
theorem shaBlockCount_mul (len : Nat) : 64 * shaBlockCount len = len + 1 + padZeros len + 8 := by
  have := padZeros_cast len
  unfold shaBlockCount
  omega

/-- The blocks are as few as hold the message, the byte 0x80 and the length field. -/
theorem shaBlockCount_bounds (len : Nat) :
    len + 9 ≤ 64 * shaBlockCount len ∧ 64 * shaBlockCount len < len + 9 + 64 := by
  have := padZeros_lt len
  have := shaBlockCount_mul len
  omega

/-- Block `j` is the 64 bytes from `64 * j` on. -/
theorem shaBlocks_eq_map (n : Nat) (b : List Byte) :
    shaBlocks n b = (List.range n).map fun j => (b.drop (64 * j)).take 64 := by
  induction n generalizing b with
  | zero => rfl
  | succ n ih =>
    rw [shaBlocks, ih, List.range_succ_eq_map]
    simp [List.drop_drop, Nat.mul_succ, Nat.add_comm]

/-- Byte `i` of `be_8(v)` as an integer (R10). -/
theorem beBytes_eight_toNat (v : Nat) {i : Nat} (hi : i < 8) :
    ((beBytes 8 v).getD i 0).toNat = v / 2 ^ (56 - 8 * i) % 256 := by
  rw [beBytes_getD v hi, BitVec.toNat_ofNat, Nat.shiftRight_eq_div_pow, show 8 * (8 - 1 - i) = 56 - 8 * i by omega]

/-- Settles O39: the length field is `be_8`, the zero bytes fill the last block, and the cut takes 64 bytes at a
time. -/
theorem shaPaddingFillsBlocks : Obligations.ShaPaddingFillsBlocks := by
  refine fun m => ⟨padZeros m.length, beBytes 8 (8 * m.length), padZeros_lt _, padZeros_cast _, ?_,
    beBytes_length .., fun i => beBytes_eight_toNat _, ?_, ?_, fun j hj => ?_⟩
  · simp [shaPad]
  · rw [shaPad_length, shaBlockCount_mul]
  · simp [shaBlocks_eq_map]
  · simp [shaBlocks_eq_map, hj]

/-! ### The rotation (R101) and the message schedule (R105) -/

/-- ROTL_n moves bit `i` to bit `i + n` modulo 32 (R101). -/
theorem getLsbD_rotl {n i : Nat} (x : Word) (hn : n < 32) (hi : i < 32) :
    (rotl n x).getLsbD i = x.getLsbD ((i + 32 - n) % 32) := by
  rw [rotl, BitVec.getLsbD_or, BitVec.getLsbD_shiftLeft, BitVec.getLsbD_ushiftRight]
  by_cases hlow : i < n
  · rw [show (i + 32 - n) % 32 = 32 - n + i by omega]
    simp [hlow]
  · rw [show (i + 32 - n) % 32 = i - n by omega, BitVec.getLsbD_of_ge x (32 - n + i) (by omega)]
    simp [hlow, hi]

/-- The words a schedule is extended from stay behind the `n` new ones. -/
theorem shaExtend_drop (n : Nat) (ws : List Word) : (shaExtend n ws).drop n = ws := by
  induction n generalizing ws with
  | zero => rfl
  | succ n ih => rw [shaExtend, ← List.drop_drop, ih, List.drop_one, List.tail_cons]

theorem shaExtend_getD_add (n i : Nat) (ws : List Word) : (shaExtend n ws).getD (n + i) 0 = ws.getD i 0 := by
  rw [← congrArg (List.getD · i 0) (shaExtend_drop n ws)]
  simp

/-- Each new word follows from the older ones, which stand behind it (R105). -/
theorem shaExtend_recurrence {n k : Nat} (ws : List Word) (hk : k < n) :
    (shaExtend n ws).getD k 0 =
      rotl 1 ((shaExtend n ws).getD (k + 3) 0 ^^^ (shaExtend n ws).getD (k + 8) 0 ^^^
        (shaExtend n ws).getD (k + 14) 0 ^^^ (shaExtend n ws).getD (k + 16) 0) := by
  induction n generalizing ws with
  | zero => omega
  | succ n ih =>
    rw [shaExtend]
    obtain hlt | rfl := Nat.lt_succ_iff_lt_or_eq.mp hk
    · exact ih _ hlt
    · simp only [shaExtend_getD_add, List.getD_cons_succ]
      exact shaExtend_getD_add k 0 _

/-- The schedule oldest first, read from its list newest first. -/
theorem shaSchedule_getD (b : List Byte) {t : Nat} (ht : t < 80) :
    (shaSchedule b).getD t 0 = (shaExtend 64 (shaWords 16 b).reverse).getD (79 - t) 0 := by
  rw [shaSchedule, List.getD_reverse _ (by simpa using ht)]
  simp

/-- The first 16 words are the block's own. -/
theorem shaSchedule_getD_block (b : List Byte) {t : Nat} (ht : t < 16) :
    (shaSchedule b).getD t 0 = wordOfBytes ((b.drop (4 * t)).take 4) := by
  rw [shaSchedule_getD b (by omega), show 79 - t = 64 + (15 - t) by omega, shaExtend_getD_add,
    List.getD_reverse _ (by simp; omega), shaWords_length, show 16 - 1 - (15 - t) = t by omega, shaWords_getD b ht]

/-- The recurrence of R105. -/
theorem shaSchedule_recurrence (b : List Byte) {t : Nat} (hlo : 16 ≤ t) (hhi : t < 80) :
    (shaSchedule b).getD t 0 =
      rotl 1 ((shaSchedule b).getD (t - 3) 0 ^^^ (shaSchedule b).getD (t - 8) 0 ^^^
        (shaSchedule b).getD (t - 14) 0 ^^^ (shaSchedule b).getD (t - 16) 0) := by
  have back (i : Nat) (hi : i ≤ t) : (shaSchedule b).getD (t - i) 0 =
      (shaExtend 64 (shaWords 16 b).reverse).getD (79 - t + i) 0 := by
    rw [shaSchedule_getD b (by omega), show 79 - (t - i) = 79 - t + i by omega]
  rw [shaSchedule_getD b hhi, back 3 (by omega), back 8 (by omega), back 14 (by omega), back 16 (by omega)]
  exact shaExtend_recurrence _ (by omega)

/-- Settles O40: the words of the block, and the recurrence with its rotation by one bit. -/
theorem shaScheduleRecurrence : Obligations.ShaScheduleRecurrence := by
  refine fun b hb => ⟨shaSchedule_length b, fun t ht => ?_, fun t x hlo hhi hx => ?_⟩
  · rw [shaSchedule_getD_block b ht, take_four_drop (by omega), wordOfBytes_four_toNat, fromBe_four]
  · have hrotl : (shaSchedule b).getD t 0 = rotl 1 x := hx ▸ shaSchedule_recurrence b hlo hhi
    exact ⟨hrotl, fun i hi => hrotl ▸ getLsbD_rotl x (by decide) hi⟩

/-! ### The compression (R103, R104, R106) -/

/-- The rounds by number: round `t + i` takes word `i`. -/
theorem shaRounds_eq_foldl (t : Nat) (ws : List Word) (v : Digest) :
    shaRounds t ws v = (List.range ws.length).foldl (fun v i => shaRound (t + i) (ws.getD i 0) v) v := by
  induction ws generalizing t v with
  | nil => rfl
  | cons w ws ih =>
    rw [shaRounds, ih, List.length_cons, List.range_succ_eq_map, List.foldl_cons, List.foldl_map]
    simp only [List.getD_cons_succ, Nat.add_right_comm t 1]
    rfl

/-- The 80 rounds of a block (R106). -/
theorem shaCompress_eq_foldl (h : Digest) (block : List Byte) :
    shaCompress h block =
      h.add ((List.range 80).foldl (fun v t => shaRound t ((shaSchedule block).getD t 0) v) h) := by
  rw [shaCompress, shaRounds_eq_foldl, shaSchedule_length]
  simp only [Nat.zero_add]

/-- The blocks in order, by number. -/
theorem sha1_eq_foldl (m : List Byte) :
    sha1 m = (List.range (shaBlockCount m.length)).foldl
      (fun h j => shaCompress h (((shaPad m).drop (64 * j)).take 64)) shaInit := by
  rw [sha1, shaBlocks_eq_map, List.foldl_map]

/-- The round functions and constants by the four ranges of rounds (R104). -/
theorem shaF_shaK_ranges (t : Nat) (b c d : Word) :
    (t ≤ 19 → shaF t b c d = (b &&& c) ^^^ (~~~b &&& d) ∧ shaK t = 0x5A827999) ∧
    (20 ≤ t → t ≤ 39 → shaF t b c d = b ^^^ c ^^^ d ∧ shaK t = 0x6ED9EBA1) ∧
    (40 ≤ t → t ≤ 59 → shaF t b c d = (b &&& c) ^^^ (b &&& d) ^^^ (c &&& d) ∧ shaK t = 0x8F1BBCDC) ∧
    (60 ≤ t → t ≤ 79 → shaF t b c d = b ^^^ c ^^^ d ∧ shaK t = 0xCA62C1D6) := by
  unfold shaF shaK
  refine ⟨fun _ => ?_, fun _ _ => ?_, fun _ _ => ?_, fun _ _ => ?_⟩
  · have : t < 20 := by omega
    simp [this]
  · have : ¬ t < 20 ∧ t < 40 := by omega
    simp [this]
  · have : ¬ t < 20 ∧ ¬ t < 40 ∧ t < 60 := by omega
    simp [this]
  · have : ¬ t < 20 ∧ ¬ t < 40 ∧ ¬ t < 60 := by omega
    simp [this]

/-- Settles O41: rounds and blocks by number, the rotation by its bits. -/
theorem shaCompressionRounds : Obligations.ShaCompressionRounds :=
  ⟨fun _ x hn => ⟨rfl, fun _ hi => getLsbD_rotl x hn hi⟩, rfl, shaF_shaK_ranges,
    fun h _ block hv => hv ▸ shaCompress_eq_foldl h block,
    fun m => ⟨(sha1 m).bytes_length, sha1_eq_foldl m⟩⟩

/-! ### The key of HMAC (R108) -/

theorem hmacKey_of_short {key : List Byte} (h : key.length ≤ 64) :
    hmacKey key = key ++ List.replicate (64 - key.length) 0 := by
  have hshort : hmacShortKey key = key := if_neg (Nat.not_lt.mpr h)
  rw [hmacKey, hshort]

theorem hmacKey_of_long {key : List Byte} (h : 64 < key.length) :
    hmacKey key = (sha1 key).bytes ++ List.replicate 44 0 := by
  have hlong : hmacShortKey key = (sha1 key).bytes := if_pos h
  rw [hmacKey, hlong, Digest.bytes_length]
  rfl

@[simp] theorem hmacKey_length (key : List Byte) : (hmacKey key).length = 64 := by
  by_cases h : key.length ≤ 64
  · simp [hmacKey_of_short h, h]
  · simp [hmacKey_of_long (Nat.not_le.mp h)]

/-- Settles O43: both cases of the key, each 64 bytes long. -/
theorem hmacKeyPreparation : Obligations.HmacKeyPreparation :=
  fun key => ⟨hmacKey_length key, hmacKey_of_short, hmacKey_of_long⟩

/-! ### HMAC (R109, R110) -/

theorem hmacOutcome_of_lengths {s : State} (hkey : s.keyLen.toNat ≤ 128) (hmsg : s.msgLen.toNat ≤ 128) :
    s.hmacOutcome = .complete { digest := some (hmacSha1 s.keyBytes s.msgBytes) } := by
  simp [State.hmacOutcome, State.keyTooLong_eq_false hkey, State.msgTooLong_eq_false hmsg]

theorem hmacOutcome_of_too_long {s : State} (h : 128 < s.keyLen.toNat ∨ 128 < s.msgLen.toNat) :
    s.hmacOutcome = .error .lengthRange := by
  rw [← s.keyTooLong_iff, ← s.msgTooLong_iff] at h
  obtain hkey | hmsg := h
  · exact if_pos hkey
  · simp [State.hmacOutcome, hmsg]

/-- Settles O32: the two outcomes of HMAC, and the lengths of the inputs of its two hashes. -/
theorem hmacComputesMac : Obligations.HmacComputesMac := by
  refine ⟨decode_encode .hmac, fun s hkey hmsg => ?_, fun s hlong => ?_, ?_⟩
  · rw [exec_eq, commandOutcome, hmacOutcome_of_lengths hkey hmsg]
    rfl
  · rw [exec_eq, commandOutcome, hmacOutcome_of_too_long hlong]
    rfl
  · rintro key msg inner outer rfl rfl
    have hinner : ((hmacKey key).map (fun b => b ^^^ 0x36) ++ msg).length = 64 + msg.length := by simp
    have houter (d : Digest) : ((hmacKey key).map (fun b => b ^^^ 0x5C) ++ d.bytes).length = 84 := by simp
    refine ⟨rfl, Digest.bytes_length _, fun hmsg => ?_, houter _, ?_⟩
    · rw [hinner]
      have := shaBlockCount_bounds (64 + msg.length)
      omega
    · rw [houter]
      have := shaBlockCount_bounds 84
      omega

end Sys2Proof.Machine
end

section
/-! PROOFS. The family 41_truncation_hotp: dynamic truncation on bytes (R131, R134), the commands TRUNC (R135) and HOTP
(R136, R137), and HOTP as HMAC followed by TRUNC (R137). -/
namespace Sys2Proof.Machine

/-! ### Dynamic truncation on bytes (R131, R134) -/

/-- P by its bytes, the first most significant (R131). -/
theorem truncWindow_bytes {hs : Digest} {o : Nat} (ho : o = (hs.bytes.getD 19 0).toNat % 16) :
    (truncWindow hs.bytes).toNat =
      (((hs.bytes.getD o 0).toNat * 256 + (hs.bytes.getD (o + 1) 0).toNat) * 256 +
        (hs.bytes.getD (o + 2) 0).toNat) * 256 + (hs.bytes.getD (o + 3) 0).toNat := by
  rw [truncWindow_toNat hs.bytes_length ho, fromBe_four]

/-- The code depends on the byte string through P alone. -/
theorem truncate_code_window (hs : List Byte) (d : Nat) :
    (truncate hs d).code = (truncWindow hs).toNat % 2 ^ 31 % 10 ^ d := by
  rw [truncate_code, truncate_snum_toNat]

/-- Fewer digits are the last digits of more (R134). -/
theorem truncate_code_mod {d d' : Nat} (h : d' ≤ d) (hs : List Byte) :
    (truncate hs d').code = (truncate hs d).code % 10 ^ d' := by
  rw [truncate_code_window, truncate_code_window, Nat.mod_mod_of_dvd _ (Nat.pow_dvd_pow 10 h)]

/-- Equal selected bytes give the same P. -/
theorem truncWindow_congr {x y : Digest} {o : Nat} (hx : o = (x.bytes.getD 19 0).toNat % 16)
    (hy : o = (y.bytes.getD 19 0).toNat % 16) (h : ∀ j, j < 4 → x.bytes.getD (o + j) 0 = y.bytes.getD (o + j) 0) :
    (truncWindow x.bytes).toNat = (truncWindow y.bytes).toNat := by
  have h0 : x.bytes.getD o 0 = y.bytes.getD o 0 := h 0 (by decide)
  rw [truncWindow_bytes hx, truncWindow_bytes hy, h0, h 1 (by decide), h 2 (by decide), h 3 (by decide)]

/-- Settles O45: the offset is a remainder modulo 16, and P, SNUM and the code follow from the bytes it selects. -/
theorem truncationFacts : Obligations.TruncationFacts := by
  intro x y d d' _ hd
  have hoffset : (truncate x.bytes d).offset.toNat = (x.bytes.getD 19 0).toNat % 16 := truncOffset_toNat x.bytes
  have hsnum : (truncate x.bytes d).snum.toNat = (truncate x.bytes d).p.toNat % 2 ^ 31 :=
    truncate_snum_toNat x.bytes d
  have hcode := truncate_code x.bytes d
  have hfewer := truncate_code_mod hd x.bytes
  refine ⟨by omega, fun o ho => truncWindow_bytes (ho.trans hoffset), hoffset, hsnum, by omega, ?_, hcode, hfewer,
    fun hlt => hfewer.trans (Nat.mod_eq_of_lt hlt), fun o hx hy hbytes => ?_⟩
  · rw [hcode]
    exact Nat.mod_lt _ (Nat.pow_pos (by decide))
  · rw [truncate_code_window, truncate_code_window, truncWindow_congr hx hy hbytes]

/-! ### TRUNC (R135) -/

theorem truncOutcome_of_digits {s : State} (h : s.digitsLegal = true) :
    s.truncOutcome = .complete { truncation := some (truncate s.digest.bytes s.digits.toNat) } := if_pos h

theorem truncOutcome_of_illegal_digits {s : State} (h : s.digitsLegal = false) :
    s.truncOutcome = .error .invalidDigitCount := by
  simp [State.truncOutcome, h]

/-- A completion that writes a truncation, on integers; HOTP writes the digest too (R135, R137). -/
theorem finish_truncation (s : State) (digest : Option Digest) {hs : Digest} {d o snum : Nat}
    (ho : o = (hs.bytes.getD 19 0).toNat % 16)
    (hsnum : snum = ((((hs.bytes.getD o 0).toNat * 256 + (hs.bytes.getD (o + 1) 0).toNat) * 256 +
      (hs.bytes.getD (o + 2) 0).toNat) * 256 + (hs.bytes.getD (o + 3) 0).toNat) % 2 ^ 31) :
    s.finish (.complete { digest, truncation := some (truncate hs.bytes d) }) =
      { s with
        digest := digest.getD s.digest
        offset := BitVec.ofNat 4 o, snum := BitVec.ofNat 31 snum, code := BitVec.ofNat 27 (snum % 10 ^ d)
        done := true, err := 0, phase := .idle, iter := none } := by
  rw [← truncWindow_bytes ho] at hsnum
  have offset_eq : (truncate hs.bytes d).offset = BitVec.ofNat 4 o := by
    rw [ho, ← truncOffset_toNat, BitVec.ofNat_toNat, BitVec.setWidth_eq]
    rfl
  have snum_eq : (truncate hs.bytes d).snum = BitVec.ofNat 31 snum := by
    rw [hsnum, ← truncate_snum_toNat hs.bytes d, BitVec.ofNat_toNat, BitVec.setWidth_eq]
  have code_eq : (truncate hs.bytes d).code = snum % 10 ^ d := by rw [hsnum, truncate_code_window]
  rw [← offset_eq, ← snum_eq, ← code_eq]
  rfl

/-- Settles O33: the two outcomes of TRUNC, the successful one on integers. -/
theorem truncExtractsCode : Obligations.TruncExtractsCode := by
  refine ⟨decode_encode .trunc, fun s d o snum hd hlegal ho hsnum => ?_, fun s h6 h7 h8 => ?_⟩
  · have hlegal : s.digitsLegal = true := s.digitsLegal_iff.mpr (by omega)
    rw [exec_eq, commandOutcome, truncOutcome_of_digits hlegal, hd, finish_truncation s none ho hsnum]
    rfl
  · rw [exec_eq, commandOutcome, truncOutcome_of_illegal_digits (State.digitsLegal_eq_false (by omega))]
    rfl

/-! ### HOTP (R136, R137) -/

theorem hotpOutcome_of_operands {s : State} (hkey : s.keyLen.toNat ≤ 128) (hlegal : s.digitsLegal = true) :
    s.hotpOutcome = .complete
      { digest := some s.hotpDigest
        truncation := some (truncate s.hotpDigest.bytes s.digits.toNat) } := by
  simp [State.hotpOutcome, State.keyTooLong_eq_false hkey, hlegal]

theorem hotpOutcome_of_too_long {s : State} (h : 128 < s.keyLen.toNat) : s.hotpOutcome = .error .lengthRange :=
  if_pos (s.keyTooLong_iff.mpr h)

theorem hotpOutcome_of_illegal_digits {s : State} (hkey : s.keyLen.toNat ≤ 128) (h : s.digitsLegal = false) :
    s.hotpOutcome = .error .invalidDigitCount := by
  simp [State.hotpOutcome, State.keyTooLong_eq_false hkey, h]

/-- A HOTP that succeeds leaves `hotp(KEY, COUNTER, DIGITS)` in CODE, all its digits (R136, R137). -/
theorem code_of_hotp {s t : State} (h : exec .hotp s = .next t) (herr : t.err = 0) :
    t.code.toNat = hotpCode s.keyBytes s.counter s.digits.toNat := by
  obtain rfl := exec_next h
  cases hout : commandOutcome .hotp s with
  | error e =>
    rw [hout] at herr
    exact absurd herr e.code_ne_zero
  | complete w =>
    obtain ⟨_, hop, -⟩ | ⟨hop, -⟩ | ⟨-, hlegal, rfl⟩ | ⟨_, hop | hop, -⟩ | ⟨_, _, hop, -⟩ :=
      commandOutcome_writes hout
    case inr.inr.inl =>
      have hdigits : s.digits.toNat ≤ 8 := (s.digitsLegal_iff.mp hlegal).2
      exact (truncate_code_fits s.hotpDigest.bytes hdigits).trans (truncate_code ..).symm
    all_goals cases hop

/-- Settles O34: a message with the slices of COUNTER is its `be_8`, and the errors come in the order of their
checks. -/
theorem hotpComputesCode : Obligations.HotpComputesCode := by
  refine ⟨decode_encode .hotp, fun s d o snum msg hs hkey hd hlegal hlen hmsg hmac ho hsnum => ?_,
    fun key msg c d hlen hmsg => ?_, fun s t => code_of_hotp, fun s hlong => ?_, fun s hkey h6 h7 h8 => ?_⟩
  · have hlegal : s.digitsLegal = true := s.digitsLegal_iff.mpr (by omega)
    have hdigest : s.hotpDigest = hs := by rw [hmac, eq_beBytes_of_slices hlen hmsg, State.hotpDigest]
    rw [exec_eq, commandOutcome, hotpOutcome_of_operands hkey hlegal, hdigest, hd, finish_truncation s _ ho hsnum]
    rfl
  · rw [eq_beBytes_of_slices hlen hmsg, hotpCode]
  · rw [exec_eq, commandOutcome, hotpOutcome_of_too_long hlong]
    rfl
  · rw [exec_eq, commandOutcome, hotpOutcome_of_illegal_digits hkey (State.digitsLegal_eq_false (by omega))]
    rfl

/-! ### HOTP as HMAC followed by TRUNC (R137) -/

/-- A MSG of 8 bytes that holds the slices of COUNTER is `be_8(COUNTER)` (R62). -/
theorem msgBytes_eq_beBytes {s : State} (hlen : s.msgLen = 8)
    (hmsg : ∀ i, i < 8 → Memory.read s.mem (msgBase + i) = s.counter.extractLsb' (56 - 8 * i) 8) :
    s.msgBytes = beBytes 8 s.counter.toNat := by
  rw [State.msgBytes, hlen]
  exact eq_beBytes_of_slices (Memory.readBytes_length ..) fun i hi =>
    (Memory.readBytes_getD s.mem msgBase hi).trans (hmsg i hi)

/-- Settles O46: HMAC leaves HOTP's digest, TRUNC leaves its truncation, and neither changes anything else. -/
theorem hotpIsHmacThenTrunc : Obligations.HotpIsHmacThenTrunc := by
  intro s h t hkey hlegal hlen hmsg hhmac htrunc
  have hmac_eq : h = s.finish (.complete { digest := some s.hotpDigest }) := by
    rw [exec_next hhmac, commandOutcome, hmacOutcome_of_lengths hkey (by rw [hlen]; decide),
      msgBytes_eq_beBytes hlen hmsg, State.hotpDigest]
  have hlegal' : h.digitsLegal = true := by
    rw [hmac_eq, State.digitsLegal_congr (s.finish_digits _), hlegal]
  rw [exec_eq, commandOutcome, hotpOutcome_of_operands hkey hlegal, exec_next htrunc, commandOutcome,
    truncOutcome_of_digits hlegal', hmac_eq]
  rfl

end Sys2Proof.Machine
end

section
/-! PROOFS. The family 42_counter: the increment and CINC (R150), and the writers of COUNTER (R152). -/
namespace Sys2Proof.Machine

/-! ### CINC (R150) -/

/-- The increment on integers (R150). -/
theorem counterNext_eq_ofNat (c : Dword) : counterNext c = BitVec.ofNat 64 ((c.toNat + 1) % 2 ^ 64) := by
  apply BitVec.eq_of_toNat_eq
  rw [counterNext, BitVec.toNat_add, BitVec.toNat_ofNat, Nat.mod_mod]
  rfl

/-- Settles O35: CINC has no error outcome, and its one write is the increment. -/
theorem cincIncrementsModulo : Obligations.CincIncrementsModulo := by
  refine ⟨decode_encode .cinc, fun s => ?_⟩
  rw [exec_eq, commandOutcome, counterNext_eq_ofNat]
  rfl

/-! ### The writers of COUNTER (R152) -/

/-- A completion leaves COUNTER as it is, unless it is of CINC or of TOTPC (R81). -/
theorem finish_counter (s s' : State) (i : Instr) :
    i = .cinc ∨ i = .totpc ∨ (s.finish (commandOutcome i s')).counter = s.counter := by
  cases hw : commandOutcome i s' with
  | error e => simp [State.finish_error]
  | complete w =>
    obtain ⟨_, -, rfl⟩ | ⟨-, -, rfl⟩ | ⟨-, -, rfl⟩ | ⟨_, hi, -⟩ | ⟨_, _, -, rfl⟩ := commandOutcome_writes hw
    case inr.inr.inr.inl => exact or_assoc.mp (.inl hi)
    all_goals simp [State.finish_complete]

/-- A store that reaches a register is made at that register's own offset (R20). -/
theorem hostStoresNext_addr {s : State} {off : Nat} {v : Word} {r : Reg} (idle : s.busy = false)
    (turn : s.hostWritesNext off v) (aligned : off % 4 = 0) (inside : off ≤ 0x1FC) (hat : regAt off = r)
    (hr : r ≠ .reserved) : s.hostStoresNext r.addr :=
  eq_addr_of_regAt aligned inside hat hr ▸ ⟨idle, v, turn⟩

/-- Settles O56: COUNTER moves at a completion of CINC or TOTPC, by a store to one of its halves, and by reset. -/
theorem counterWritersAreKnown : Obligations.CounterWritersAreKnown := by
  intro s t hstep hne
  cases stepEffect_of_step hstep with
  | reset turn after => simp [turn]
  | quiet iter resetIn script reads after moved => simp [after] at hne
  | completion i turn after =>
    obtain rfl | rfl | hkept := finish_counter { s with turns := s.turns.tail } s i
    · exact .inl turn
    · exact .inr (.inl turn)
    · exact absurd (after ▸ hkept) hne
  | busyWrite off v rest coll busy turn aligned inside after flag => simp [after] at hne
  | acceptance w rest idle turn after => simp [after] at hne
  | store off v rest idle turn aligned inside notCmd after =>
    obtain ⟨hcmd, -⟩ | ⟨_, _, _, _, _, _, _, _, _, _, _, _, _, hs, -, -, -, -, -, -, -, -, -, hcounter, -⟩ :=
      writeReg_cases (regAt off) v _
    · exact absurd hcmd notCmd
    rw [after.trans hs] at hne
    obtain hat | hat := hcounter.resolve_left hne
    · exact .inr (.inr (.inl (hostStoresNext_addr idle turn aligned inside hat (by decide))))
    · exact .inr (.inr (.inr (.inl (hostStoresNext_addr idle turn aligned inside hat (by decide)))))

end Sys2Proof.Machine
end

section
/-! PROOFS. The family 43_totp_counter: the counter TOTPC derives and its errors (R161, R162), and the window that
TOTPC followed by VERIFY covers (R164). -/
namespace Sys2Proof.Machine

/-! ### The counter on exact integers (R161) -/

theorem totpCounter_of_period_zero (t0 drift now : Nat) :
    totpCounter 0 t0 drift now = .error .periodZero := if_pos rfl

/-- The two checks of R161 that reject with TIME_UNDERFLOW. -/
theorem totpCounter_of_underflow {period t0 drift now : Nat} (hperiod : period ≠ 0)
    (h : now < t0 ∨ (now - t0) / period < drift) :
    totpCounter period t0 drift now = .error .timeUnderflow := by
  rw [totpCounter, if_neg hperiod]
  by_cases hbefore : now < t0
  · exact if_pos hbefore
  · rw [if_neg hbefore, if_pos (h.resolve_left hbefore)]

/-- TOTPC succeeds when every subtraction is guarded, and `drift + c` is then the server's step. -/
theorem totpCounter_eq_ok_iff {period t0 drift now c : Nat} :
    totpCounter period t0 drift now = .ok c ↔
      period ≠ 0 ∧ t0 ≤ now ∧ drift + c = (now - t0) / period := by
  by_cases hperiod : period = 0
  · simp [hperiod, totpCounter_of_period_zero]
  by_cases hunder : now < t0 ∨ (now - t0) / period < drift
  · rw [totpCounter_of_underflow hperiod hunder]
    exact ⟨nofun, fun ⟨_, _, _⟩ => by omega⟩
  · obtain ⟨hbefore, hdrift⟩ := not_or.mp hunder
    rw [totpCounter, if_neg hperiod, if_neg hbefore, if_neg hdrift, Except.ok.injEq]
    exact ⟨fun _ => ⟨hperiod, by omega, by omega⟩, fun ⟨_, _, _⟩ => by omega⟩

/-- The rejection of R161 is the source's underflow condition in unbounded integers (R162). -/
theorem totp_underflow_iff {period : Nat} (t0 drift now : Nat) (hperiod : 0 < period) :
    (now < t0 ∨ (now - t0) / period < drift) ↔ now < t0 + drift * period := by
  rw [Nat.div_lt_iff_lt_mul hperiod]
  omega

/-! ### TOTPC (R161, R162) -/

theorem exec_totpc_of_error {s : State} {e : ErrCode}
    (h : totpCounter s.period.toNat s.t0.toNat s.drift.toNat s.now.toNat = .error e) :
    exec .totpc s = .next (s.settle e.code) := by
  rw [exec_eq, commandOutcome, State.totpOutcome, h]
  rfl

theorem exec_totpc_of_ok {s : State} {c : Nat}
    (h : totpCounter s.period.toNat s.t0.toNat s.drift.toNat s.now.toNat = .ok c) :
    exec .totpc s = .next ({ s with counter := BitVec.ofNat 64 c }.settle 0) := by
  rw [exec_eq, commandOutcome, State.totpOutcome, h]
  rfl

/-- Settles O36: the checks in their order, and the difference that the last of them guards. -/
theorem totpcDerivesCounter : Obligations.TotpcDerivesCounter := by
  refine ⟨decode_encode .totpc, fun s hzero => ?_, fun s hperiod hbefore => ?_, ?_⟩
  · exact exec_totpc_of_error (by rw [hzero]; exact totpCounter_of_period_zero ..)
  · exact exec_totpc_of_error (totpCounter_of_underflow (BitVec.toNat_ne.mp hperiod) (.inl hbefore))
  · rintro s q hperiod hafter rfl
    have hperiod : s.period.toNat ≠ 0 := BitVec.toNat_ne.mp hperiod
    refine ⟨fun hunder => ?_, fun hdrift => ⟨?_, ?_⟩⟩
    · exact exec_totpc_of_error (totpCounter_of_underflow hperiod (.inr hunder))
    · exact exec_totpc_of_ok (totpCounter_eq_ok_iff.mpr ⟨hperiod, hafter, Nat.add_sub_cancel' hdrift⟩)
    · have hstep := Nat.div_le_self (s.now.toNat - s.t0.toNat) s.period.toNat
      have hnow := s.now.isLt
      omega

/-- Settles O48: by O36, ERR is 3 where one of the two underflow checks rejects and 0 elsewhere. -/
theorem totpcRejectsExactlyUnderflow : Obligations.TotpcRejectsExactlyUnderflow := by
  intro s t hperiod hexec
  have hpos : 0 < s.period.toNat := Nat.pos_of_ne_zero (BitVec.toNat_ne.mp hperiod)
  refine ⟨?_, fun _ => Nat.div_lt_iff_lt_mul hpos⟩
  rw [← totp_underflow_iff _ _ _ hpos]
  obtain ⟨-, -, hbefore, hfrom⟩ := totpcDerivesCounter
  obtain hlt | hle := Nat.lt_or_ge s.now.toNat s.t0.toNat
  · cases hexec.symm.trans (hbefore s hperiod hlt)
    exact iff_of_true rfl (.inl hlt)
  obtain ⟨hunder, hsucc⟩ := hfrom s _ hperiod hle rfl
  obtain hlt | hdrift := Nat.lt_or_ge ((s.now.toNat - s.t0.toNat) / s.period.toNat) s.drift.toNat
  · cases hexec.symm.trans (hunder hlt)
    exact iff_of_true rfl (.inr hlt)
  · cases hexec.symm.trans (hsucc hdrift).1
    exact iff_of_false (by simp) (by omega)

/-! ### The window of TOTPC followed by VERIFY (R164) -/

/-- The counters tried from `c` on are an interval (R183). -/
theorem mem_window_iff {th c S : Nat} : (∃ k, k < th ∧ S = c + k) ↔ c ≤ S ∧ S < c + th :=
  ⟨fun ⟨_, _, _⟩ => by omega, fun ⟨_, _⟩ => ⟨S - c, by omega, by omega⟩⟩

/-- A skew of at most `k` periods moves the step by at most `k`. -/
theorem step_add_skew_le {period skew k : Nat} (hperiod : 0 < period) (h : skew ≤ period * k) (x : Nat) :
    (x + skew) / period ≤ x / period + k := by
  rw [← Nat.add_mul_div_left x k hperiod]
  exact Nat.div_le_div_right (Nat.add_le_add_left h x)

/-- A skew of at least `k` periods moves the step by at least `k`. -/
theorem le_step_add_skew {period skew k : Nat} (hperiod : 0 < period) (h : period * k ≤ skew) (x : Nat) :
    x / period + k ≤ (x + skew) / period := by
  rw [← Nat.add_mul_div_left x k hperiod]
  exact Nat.div_le_div_right (Nat.add_le_add_left h x)

/-- Settles O49: the window is an interval around the server's step, and the two skew lemmas bound the client's step,
from the server's clock for a client ahead and from the client's for one behind. -/
theorem driftWindowCoverage : Obligations.DriftWindowCoverage := by
  rintro period t0 drift now th c T hok rfl
  obtain ⟨hne, hafter, hstep⟩ := totpCounter_eq_ok_iff.mp hok
  have hperiod : 0 < period := Nat.pos_of_ne_zero hne
  have ahead (skew : Nat) : now + skew - t0 = now - t0 + skew := by omega
  have behind {skew : Nat} (h : t0 + skew ≤ now) : now - t0 = now - skew - t0 + skew := by omega
  simp only [mem_window_iff]
  refine ⟨fun S => by omega, fun skew hth hskew => ?_, fun skew hskew => ?_, fun skew hth hclient hskew => ?_,
    fun skew hclient hskew => ?_⟩
  · have hmin := Nat.div_le_div_right (c := period) (Nat.le_add_right (now - t0) skew)
    have hmax := step_add_skew_le hperiod hskew (now - t0)
    rw [ahead]
    omega
  · have hmin := le_step_add_skew hperiod hskew (now - t0)
    rw [ahead]
    omega
  · have hmin := Nat.div_le_div_right (c := period) (Nat.le_add_right (now - skew - t0) skew)
    have hmax := step_add_skew_le hperiod hskew (now - skew - t0)
    rw [← behind hclient] at hmin hmax
    omega
  · have hmin := le_step_add_skew hperiod hskew (now - skew - t0)
    rw [← behind hclient] at hmin
    omega

end Sys2Proof.Machine
end

section
/-! PROOFS. The family 44_verify: the search of VERIFY (R182, R183) and the HMACs it computes (R188), the state machine
of R181 and its agreement with R182, and the code that a client generated (R190). -/
namespace Sys2Proof.Machine

/-! ### The outcome of VERIFY, check by check (R182) -/

theorem State.verifyOutcome_of_long_key {s : State} (h : 128 < s.keyLen.toNat) :
    s.verifyOutcome = .error .lengthRange :=
  if_pos (s.keyTooLong_iff.mpr h)

theorem State.verifyOutcome_out_of_range {s : State} (hkey : s.keyLen.toNat ≤ 128)
    (hrange : s.submitted.toNat < 100000 ∨ 99999999 < s.submitted.toNat) :
    s.verifyOutcome = .error .invalidDigitCount := by
  rw [State.verifyOutcome, State.keyTooLong_eq_false hkey, inCodeRange_eq_false hrange]
  rfl

section
variable {s : State} (hkey : s.keyLen.toNat ≤ 128) (hlo : 100000 ≤ s.submitted.toNat)
  (hhi : s.submitted.toNat ≤ 99999999)
include hkey hlo hhi

/-- The steps reported are the place of the match in the window (R187). -/
theorem State.verifyOutcome_first {k : Nat} (hk : k < s.threshold.toNat)
    (hmatch : hotpCode s.keyBytes (s.counter + BitVec.ofNat 64 k) (ndigits s.submitted.toNat) = s.submitted.toNat)
    (hmiss : ∀ j, j < k →
      hotpCode s.keyBytes (s.counter + BitVec.ofNat 64 j) (ndigits s.submitted.toNat) ≠ s.submitted.toNat) :
    s.verifyOutcome = .complete { sync := some (BitVec.ofNat 16 k, s.counter + BitVec.ofNat 64 k) } := by
  rw [State.verifyOutcome_search hkey hlo hhi, verifySearch_first hk hmatch hmiss, Nat.sub_sub_self (Nat.le_of_lt hk)]

theorem State.verifyOutcome_none
    (hmiss : ∀ j, j < s.threshold.toNat →
      hotpCode s.keyBytes (s.counter + BitVec.ofNat 64 j) (ndigits s.submitted.toNat) ≠ s.submitted.toNat) :
    s.verifyOutcome = .error .invalidThreshold := by
  rw [State.verifyOutcome_search hkey hlo hhi, verifySearch_none hmiss]

end

/-- Settles O37: each clause is the outcome of its check or of the search, performed or raised as an error. -/
theorem verifySearchesForward : Obligations.VerifySearchesForward := by
  refine ⟨decode_encode .verify, fun s hlong => ?_, fun s hkey hrange => ?_, ?_⟩
  · rw [exec_eq, commandOutcome, State.verifyOutcome_of_long_key hlong]
    rfl
  · rw [exec_eq, commandOutcome, State.verifyOutcome_out_of_range hkey hrange]
    rfl
  · rintro s d hkey hlo hhi rfl
    refine ⟨fun k hk hmatch hmiss => ?_, fun hmiss => ?_⟩
    · rw [exec_eq, commandOutcome, State.verifyOutcome_first hkey hlo hhi hk hmatch hmiss]
      rfl
    · rw [exec_eq, commandOutcome, State.verifyOutcome_none hkey hlo hhi hmiss]
      rfl

/-! ### The HMACs of a VERIFY (R188) -/

/-- A window without a match: its first counter does not match, nor does any counter of the window after it (R183). -/
theorem window_miss_succ {key : List Byte} {d sub n : Nat} {ctr : Dword}
    (hmiss : ∀ j, j < n + 1 → hotpCode key (ctr + BitVec.ofNat 64 j) d ≠ sub) :
    hotpCode key ctr d ≠ sub ∧ ∀ j, j < n → hotpCode key (counterNext ctr + BitVec.ofNat 64 j) d ≠ sub :=
  ⟨by simpa using hmiss 0 (Nat.succ_pos n),
    fun j hj => counterNext_add ctr j ▸ hmiss (j + 1) (Nat.succ_lt_succ hj)⟩

/-- The search up to its first match computes one HMAC for each counter tried. -/
theorem searchHmacs_first {key : List Byte} {d sub rem k : Nat} {ctr : Dword} (hk : k < rem)
    (hmatch : hotpCode key (ctr + BitVec.ofNat 64 k) d = sub)
    (hmiss : ∀ j, j < k → hotpCode key (ctr + BitVec.ofNat 64 j) d ≠ sub) :
    searchHmacs key d sub rem ctr = k + 1 := by
  induction rem generalizing ctr k with
  | zero => omega
  | succ rem ih =>
    cases k with
    | zero =>
      rw [BitVec.add_zero] at hmatch
      exact if_pos hmatch
    | succ k =>
      obtain ⟨hfirst, hrest⟩ := window_miss_succ hmiss
      rw [← counterNext_add] at hmatch
      rw [searchHmacs, if_neg hfirst, ih (Nat.lt_of_succ_lt_succ hk) hmatch hrest]

theorem searchHmacs_none {key : List Byte} {d sub rem : Nat} {ctr : Dword}
    (hmiss : ∀ j, j < rem → hotpCode key (ctr + BitVec.ofNat 64 j) d ≠ sub) :
    searchHmacs key d sub rem ctr = rem := by
  induction rem generalizing ctr with
  | zero => rfl
  | succ rem ih =>
    obtain ⟨hfirst, hrest⟩ := window_miss_succ hmiss
    rw [searchHmacs, if_neg hfirst, ih hrest]

theorem State.verifyHmacs_of_long_key {s : State} (h : 128 < s.keyLen.toNat) : s.verifyHmacs = 0 :=
  if_pos (s.keyTooLong_iff.mpr h)

theorem State.verifyHmacs_out_of_range {s : State}
    (hrange : s.submitted.toNat < 100000 ∨ 99999999 < s.submitted.toNat) : s.verifyHmacs = 0 := by
  simp [State.verifyHmacs, inCodeRange_eq_false hrange]

theorem State.verifyHmacs_search {s : State} (hkey : s.keyLen.toNat ≤ 128) (hlo : 100000 ≤ s.submitted.toNat)
    (hhi : s.submitted.toNat ≤ 99999999) :
    s.verifyHmacs =
      searchHmacs s.keyBytes (ndigits s.submitted.toNat) s.submitted.toNat s.threshold.toNat s.counter := by
  rw [State.verifyHmacs, State.keyTooLong_eq_false hkey, (inCodeRange_iff _).mpr ⟨hlo, hhi⟩]
  rfl

/-- Settles O52: by the check that fails, or by the first match of the window or its absence; VSTEPS holds the place of
the match, which is below THRESHOLD. -/
theorem verifyHmacWork : Obligations.VerifyHmacWork := by
  intro s t hexec
  obtain rfl := exec_next hexec
  rw [commandOutcome]
  obtain hlong | hkey := Nat.lt_or_ge 128 s.keyLen.toNat
  · rw [State.verifyOutcome_of_long_key hlong, State.verifyHmacs_of_long_key hlong]
    simp [State.finish_error, ErrCode.code]
  by_cases hrange : s.submitted.toNat < 100000 ∨ 99999999 < s.submitted.toNat
  · rw [State.verifyOutcome_out_of_range hkey hrange, State.verifyHmacs_out_of_range hrange]
    simp [State.finish_error, ErrCode.code]
  have hlo : 100000 ≤ s.submitted.toNat := by omega
  have hhi : s.submitted.toNat ≤ 99999999 := by omega
  rw [State.verifyHmacs_search hkey hlo hhi]
  obtain hmiss | ⟨k, hk, hmatch, hmiss⟩ := first_match_or_none
    (fun k => hotpCode s.keyBytes (s.counter + BitVec.ofNat 64 k) (ndigits s.submitted.toNat) = s.submitted.toNat)
    s.threshold.toNat
  · rw [State.verifyOutcome_none hkey hlo hhi hmiss, searchHmacs_none hmiss]
    simp [State.finish_error, ErrCode.code]
  · have hsteps : (BitVec.ofNat 16 k).toNat = k :=
      Nat.mod_eq_of_lt (Nat.lt_trans hk s.threshold.isLt)
    rw [State.verifyOutcome_first hkey hlo hhi hk hmatch hmiss, searchHmacs_first hk hmatch hmiss]
    simpa [State.finish_complete, State.perform, hsteps] using hk

/-! ### The state machine row by row (R181) -/

/-- What a host reads depends neither on the iteration state nor on the schedule. -/
theorem memRead_of_hidden (off : Nat) (s : State) (iter : Option VerifyIter) (turns : List Turn) :
    memRead off { s with iter := iter, turns := turns } = memRead off s := by
  unfold memRead
  cases regAt off <;> rfl

/-- A work turn is one internal transition, unless reset is asserted (log 9, R240). -/
theorem step_work {s : State} (hturn : s.nextTurn = .work) :
    step s = .next { s with
      iter := if s.resetIn then s.iter else s.iter.map s.verifyStep, turns := s.turns.tail } := by
  rw [step_eq, hturn, takeTurn]
  cases s.resetIn <;> rfl

/-- Settles O51: the rows are the branches of the transition function, and a work turn moves only what no read shows. -/
theorem verifyTransitionTable : Obligations.VerifyTransitionTable := by
  refine ⟨fun s => ⟨fun hlong => ?_, fun hkey => ?_, fun hrange => ?_, fun hlo hhi => ?_, fun ctr rem d => ?_⟩,
    fun s t hturn hstep => ?_⟩
  · exact if_pos (s.keyTooLong_iff.mpr hlong)
  · simp [State.verifyStep, State.keyTooLong_eq_false hkey]
  · simp [State.verifyStep, inCodeRange_eq_false hrange]
  · exact if_pos ((inCodeRange_iff _).mpr ⟨hlo, hhi⟩)
  · exact ⟨fun hrem => hrem ▸ s.verifyStep_attempt_zero ctr d, State.verifyStep_attempt_match,
      State.verifyStep_attempt_next⟩
  · cases (step_work hturn).symm.trans hstep
    exact ⟨rfl, List.map_congr_left fun i _ => memRead_of_hidden (4 * i) s _ _, rfl⟩

/-! ### The state machine reaches the outcome of the pseudocode (R181, R182) -/

/-- How many transitions the state machine can still make: at most one for each check, one for each attempt left, and
the one that finds none left. -/
def State.transitionsLeft (s : State) : VerifyIter → Nat
  | .checkKey => s.threshold.toNat + 3
  | .checkRange => s.threshold.toNat + 2
  | .attempt _ rem _ => rem.toNat + 1
  | .doneOk _ _ | .doneErr _ => 0

theorem State.transitionsLeft_verifyStep_le (s : State) (it : VerifyIter) :
    s.transitionsLeft (s.verifyStep it) ≤ s.transitionsLeft it - 1 := by
  cases it with
  | checkKey =>
    rw [State.verifyStep]
    split <;> simp [State.transitionsLeft]
  | checkRange =>
    rw [State.verifyStep]
    split <;> simp [State.transitionsLeft]
  | attempt ctr rem d =>
    rw [State.verifyStep]
    split
    case isTrue => exact Nat.zero_le _
    case isFalse hrem =>
      have hattempts : (rem - 1).toNat + 1 = rem.toNat := by bv_omega
      split
      · exact Nat.zero_le _
      · exact Nat.le_of_eq hattempts
  | doneOk steps ctr => exact Nat.zero_le _
  | doneErr e => exact Nat.zero_le _

/-- As many transitions as can still be made reach a final state. -/
theorem State.verifySteps_reaches_final {s : State} {n : Nat} {it : VerifyIter} (h : s.transitionsLeft it ≤ n) :
    ∃ o, (s.verifySteps n it).outcome = some o := by
  induction n generalizing it with
  | zero =>
    cases it with
    | checkKey | checkRange | attempt => cases h
    | doneOk | doneErr => exact ⟨_, rfl⟩
  | succ n ih =>
    have hstep := s.transitionsLeft_verifyStep_le it
    exact ih (by omega)

theorem State.iterOk_verifySteps {s : State} (n : Nat) {it : VerifyIter} (h : s.iterOk it) :
    s.iterOk (s.verifySteps n it) := by
  induction n generalizing it with
  | zero => exact h
  | succ n ih => exact ih (State.iterOk_verifyStep h)

/-- In a final state the invariant is that the outcome reported is VERIFY's. -/
theorem State.verifyOutcome_of_final {s : State} {it : VerifyIter} {o : CmdOutcome} (h : s.iterOk it)
    (ho : it.outcome = some o) : s.verifyOutcome = o := by
  cases it with
  | checkKey | checkRange | attempt => cases ho
  | doneOk | doneErr =>
    cases ho
    exact h

/-- Settles O50: the transitions left at CHECK_KEY are THRESHOLD + 3, and the invariant of R181 gives the outcome of
the final state they reach. -/
theorem verifyMachineReachesOutcome : Obligations.VerifyMachineReachesOutcome := by
  intro s
  obtain ⟨o, ho⟩ := State.verifySteps_reaches_final (s := s) (it := .checkKey) (Nat.le_refl _)
  have hinv : s.iterOk (s.verifySteps (s.threshold.toNat + 3) .checkKey) := State.iterOk_verifySteps _ trivial
  exact ho.trans (congrArg some (State.verifyOutcome_of_final hinv ho).symm)

/-! ### The code that a client generated (R190) -/

theorem hotpCode_lt (key : List Byte) (c : Dword) (d : Nat) : hotpCode key c d < 10 ^ d :=
  Nat.mod_lt _ (Nat.pow_pos (by decide))

/-- A code not 0 is also the code of the same counter under the digit count inferred from it (R134, R189). -/
theorem hotpCode_ndigits {key : List Byte} {c : Dword} {d v : Nat} (hpos : 1 ≤ v) (h : hotpCode key c d = v) :
    hotpCode key c (ndigits v) = v := by
  obtain ⟨hleast, -⟩ := digitCountIsLeastPower
  obtain ⟨hlt, hmin⟩ := hleast v hpos
  calc hotpCode key c (ndigits v)
    _ = hotpCode key c d % 10 ^ ndigits v := truncate_code_mod (hmin d (h ▸ hotpCode_lt key c d)) _
    _ = v := by rw [h, Nat.mod_eq_of_lt hlt]

/-- Settles O53: the code is below 10^8 and matches under its inferred digit count, so O37 finds it at step k. -/
theorem verifyAcceptsGeneratedCode : Obligations.VerifyAcceptsGeneratedCode := by
  intro s k d hkey hd hk hcode hlo hmiss
  have hpow : 10 ^ d ≤ 10 ^ 8 := Nat.pow_le_pow_right (by decide) (by omega)
  have hlt : s.submitted.toNat < 10 ^ d := hcode ▸ hotpCode_lt ..
  have hmatch := hotpCode_ndigits (Nat.le_trans (by decide) hlo) hcode.symm
  obtain ⟨-, -, -, hsearch⟩ := verifySearchesForward
  exact (hsearch s _ hkey hlo (by omega) rfl).1 k hk hmatch hmiss

end Sys2Proof.Machine
end

section
/-! PROOFS. The family 60_exceptions: an error writes STATUS only and leaves the engine ready (R214, R216), and the
outcome code of each command in the order of its checks (R210, R213). -/
namespace Sys2Proof.Machine

section
variable {i : Instr} {s t : State}

/-! ### The code a completion leaves in ERR (R87, R210) -/

theorem err_of_complete (h : exec i s = .next t) {w : Writes} (hout : commandOutcome i s = .complete w) :
    t.err = 0 := by
  rw [exec_next h, hout, State.finish_complete, State.settle_err]

theorem err_of_error (h : exec i s = .next t) {e : ErrCode} (hout : commandOutcome i s = .error e) :
    t.err = e.code := by
  rw [exec_next h, hout, State.finish_error, State.settle_err]

/-- A completion with a code other than 0 is an error completion: it has settled STATUS and done nothing else. -/
theorem exec_of_err_ne_zero (h : exec i s = .next t) (herr : t.err ≠ 0) :
    ∃ e, commandOutcome i s = .error e ∧ t = s.settle e.code := by
  cases hout : commandOutcome i s with
  | complete w => exact absurd (err_of_complete h hout) herr
  | error e => exact ⟨e, rfl, by rw [exec_next h, hout, State.finish_error]⟩

/-! ### The checks of each command (R213) -/

theorem hmac_err (h : exec .hmac s = .next t) :
    t.err = if 128 < s.keyLen.toNat ∨ 128 < s.msgLen.toNat then 5 else 0 := by
  split
  case isTrue hlong => exact err_of_error h (hmacOutcome_of_too_long hlong)
  case isFalse hfit => exact err_of_complete h (hmacOutcome_of_lengths (by omega) (by omega))

theorem State.digitsLegal_iff_eq (s : State) :
    s.digitsLegal = true ↔ s.digits = 6 ∨ s.digits = 7 ∨ s.digits = 8 := by
  rw [s.digitsLegal_iff]
  bv_omega

theorem trunc_err (h : exec .trunc s = .next t) :
    t.err = if s.digits = 6 ∨ s.digits = 7 ∨ s.digits = 8 then 0 else 1 := by
  simp only [← s.digitsLegal_iff_eq]
  split
  case isTrue hlegal => exact err_of_complete h (truncOutcome_of_digits hlegal)
  case isFalse hillegal =>
    exact err_of_error h (truncOutcome_of_illegal_digits (Bool.eq_false_of_not_eq_true hillegal))

theorem hotp_err (h : exec .hotp s = .next t) :
    t.err = if 128 < s.keyLen.toNat then 5
      else if s.digits = 6 ∨ s.digits = 7 ∨ s.digits = 8 then 0 else 1 := by
  simp only [← s.digitsLegal_iff_eq]
  split
  case isTrue hlong => exact err_of_error h (hotpOutcome_of_too_long hlong)
  case isFalse hkey =>
    have hkey : s.keyLen.toNat ≤ 128 := Nat.le_of_not_lt hkey
    split
    case isTrue hlegal => exact err_of_complete h (hotpOutcome_of_operands hkey hlegal)
    case isFalse hillegal =>
      exact err_of_error h (hotpOutcome_of_illegal_digits hkey (Bool.eq_false_of_not_eq_true hillegal))

/-- The four branches are those of R161, of which O36 says how each completes. -/
theorem totpc_err (h : exec .totpc s = .next t) :
    t.err = if s.period = 0 then 4
      else if s.now.toNat < s.t0.toNat then 3
      else if (s.now.toNat - s.t0.toNat) / s.period.toNat < s.drift.toNat then 3 else 0 := by
  obtain ⟨-, hzero, hbefore, hfrom⟩ := totpcDerivesCounter
  split
  case isTrue hperiod =>
    cases h.symm.trans (hzero s hperiod)
    rfl
  case isFalse hperiod =>
    split
    case isTrue hlt =>
      cases h.symm.trans (hbefore s hperiod hlt)
      rfl
    case isFalse hle =>
      obtain ⟨hunder, hsucc⟩ := hfrom s _ hperiod (Nat.le_of_not_lt hle) rfl
      split
      case isTrue hlt =>
        cases h.symm.trans (hunder hlt)
        rfl
      case isFalse hdrift =>
        cases h.symm.trans (hsucc (Nat.le_of_not_lt hdrift)).1
        rfl

/-- Once its checks have passed, VERIFY fails with INVALID_THRESHOLD exactly when no counter of the window matches
(R182, R183). -/
theorem verify_err_search (h : exec .verify s = .next t) (hkey : s.keyLen.toNat ≤ 128)
    (hlo : 100000 ≤ s.submitted.toNat) (hhi : s.submitted.toNat ≤ 99999999) :
    (t.err = 0 ∨ t.err = 2) ∧
    (t.err = 0 ↔ ∃ k, k < s.threshold.toNat ∧
      hotpCode s.keyBytes (s.counter + BitVec.ofNat 64 k) (ndigits s.submitted.toNat) = s.submitted.toNat) := by
  obtain hmiss | ⟨k, hk, hmatch, hmiss⟩ := first_match_or_none
    (fun k => hotpCode s.keyBytes (s.counter + BitVec.ofNat 64 k) (ndigits s.submitted.toNat) = s.submitted.toNat)
    s.threshold.toNat
  · have herr : t.err = 2 := err_of_error h (State.verifyOutcome_none hkey hlo hhi hmiss)
    have hne : t.err ≠ 0 := by simp [herr]
    exact ⟨.inr herr, iff_of_false hne fun ⟨k, hk, hmatch⟩ => hmiss k hk hmatch⟩
  · have herr : t.err = 0 := err_of_complete h (State.verifyOutcome_first hkey hlo hhi hk hmatch hmiss)
    exact ⟨.inl herr, iff_of_true herr ⟨k, hk, hmatch⟩⟩

end

/-! ### The obligations -/

/-- Settles O28: the state after an error is the one before it with STATUS settled; it is idle, so a CMD write is
accepted. -/
theorem errorsArePrecise : Obligations.ErrorsArePrecise := by
  intro i s t hexec herr
  obtain ⟨e, hout, rfl⟩ := exec_of_err_ne_zero hexec herr
  refine ⟨rfl, rfl, ⟨e, hout, rfl⟩, fun w => ?_⟩
  rw [memWrite_cmd rfl]
  exact ⟨State.accept_phase .., State.accept_done .., State.accept_err ..⟩

/-- Settles O29: command by command, each check that fails gives the outcome its code. -/
theorem errorCodesByPriority : Obligations.ErrorCodesByPriority := fun _ _ =>
  ⟨hmac_err, trunc_err, hotp_err, fun h => err_of_complete h rfl, totpc_err,
    fun h => ⟨fun hlong => err_of_error h (State.verifyOutcome_of_long_key hlong),
      fun hkey hrange => err_of_error h (State.verifyOutcome_out_of_range hkey hrange), verify_err_search h⟩,
    fun h => err_of_error h rfl⟩

end Sys2Proof.Machine
end

section
/-! PROOFS. The family 70_reset_and_hazards: what a command leaves as it is (R81, R253), the reset input at its
assertion and while it is held (R240-R242), and the SHA-1 compressions of one HMAC (R249). -/
namespace Sys2Proof.Machine

/-! ### Results that persist (R81, R253) -/

/-- An error completion leaves every result register as it is (R214). -/
theorem exec_error_keeps_results {i : Instr} {s t : State} (h : exec i s = .next t) (herr : t.err ≠ 0) :
    t.digest = s.digest ∧ t.offset = s.offset ∧ t.snum = s.snum ∧ t.code = s.code ∧ t.counter = s.counter ∧
      t.vsteps = s.vsteps ∧ t.vctr = s.vctr := by
  obtain ⟨e, -, rfl⟩ := exec_of_err_ne_zero h herr
  exact ⟨rfl, rfl, rfl, rfl, rfl, rfl, rfl⟩

/-- Settles O30: no completion writes an operand or a buffer; which results it can write depends on the command,
and an error completion writes none. -/
theorem commandsWriteOnlyTheirResults : Obligations.CommandsWriteOnlyTheirResults := by
  intro i s t hexec
  have hkept := exec_error_keeps_results hexec
  obtain rfl := exec_next hexec
  obtain ⟨htruncation, hsync, hdigest⟩ := finish_results s s i
  have hcounter := finish_counter s s i
  refine ⟨fun a => by rw [State.finish_mem], State.finish_digits .., State.finish_threshold ..,
    State.finish_keyLen .., State.finish_msgLen .., State.finish_submitted .., State.finish_period .., State.finish_t0 ..,
    State.finish_drift .., State.finish_now .., State.finish_coll .., State.finish_lastOp .., State.finish_resetIn ..,
    State.finish_script .., State.finish_turns .., State.finish_reads .., ?_, ?_, ?_, ?_, hkept⟩
  · exact fun hhmac hhotp => (hdigest.resolve_left hhmac).resolve_left hhotp
  · exact fun htrunc hhotp => (htruncation.resolve_left htrunc).resolve_left hhotp
  · exact fun hcinc htotpc => (hcounter.resolve_left hcinc).resolve_left htotpc
  · exact hsync.resolve_left

/-! ### The reset input (R240-R242) -/

/-- A step takes the turn that the schedule names. -/
theorem step_of_turns_cons {s : State} {u : Turn} {us : List Turn} (hturns : s.turns = u :: us) :
    step s = takeTurn u { s with turns := us } := by
  rw [step, hturns]

/-- While reset is asserted, a turn of the host or of the engine passes without effect (R240). -/
theorem takeTurn_of_reset_held {s : State} {u : Turn} (hres : s.resetIn = true)
    (hu : u = .host ∨ u = .work ∨ u = .complete) : takeTurn u s = .next s := by
  obtain rfl | rfl | rfl := hu <;> exact if_pos hres

/-- The schedule's default turn is one of the engine or of the host (log 1). -/
theorem defaultTurn_cases (s : State) :
    defaultTurn s = .host ∨ defaultTurn s = .work ∨ defaultTurn s = .complete := by
  unfold defaultTurn
  split
  · exact .inr (.inr rfl)
  · exact .inl rfl

/-- Settles O3: the turn is the assertion, which puts the reset values whatever was running. -/
theorem resetAbortsRunningCommand : Obligations.ResetAbortsRunningCommand := fun _ _ hturns =>
  step_of_turns_cons hturns

/-- Settles O4: the scheduled turn and the default turn are both of the host or the engine, and pass. -/
theorem resetHeldStopsBlock : Obligations.ResetHeldStopsBlock := by
  refine ⟨fun s u us hres hturns hu => ?_, fun s hres hturns => ?_⟩
  · exact (step_of_turns_cons hturns).trans (takeTurn_of_reset_held hres hu)
  · have hstep : step s = takeTurn (defaultTurn s) s := by rw [step, hturns]
    exact hstep.trans (takeTurn_of_reset_held hres (defaultTurn_cases s))

/-! ### The work of one HMAC (R249) -/

/-- The number of blocks in closed form: the message, the byte 0x80 and the length field, rounded up (R102). -/
theorem shaBlockCount_eq_div (len : Nat) : shaBlockCount len = (len + 72) / 64 := by
  have := shaBlockCount_bounds len
  omega

/-- One HMAC of an 8-byte message takes 2 inner and 2 outer compressions, and those of the key hash where the key
is longer than a block (R108, R109). -/
theorem hmacCompressions_eight (n : Nat) :
    hmacCompressions n 8 = (if 64 < n then (n + 72) / 64 else 0) + 4 := by
  simp [hmacCompressions, hmacBlock, shaBlockCount_eq_div]

/-- Settles O44: the key hash takes no block up to 64 bytes, 2 up to 119 and 3 up to 128. -/
theorem hmacCompressionCounts : Obligations.HmacCompressionCounts := by
  intro n hn
  rw [hmacCompressions_eight]
  refine ⟨fun hshort => ?_, fun hlo hhi => ?_, fun hlong => ?_⟩
  · rw [if_neg (by omega)]
  · rw [if_pos (by omega)]
    omega
  · rw [if_pos (by omega)]
    omega

end Sys2Proof.Machine
end
